-- ==== Sys2Proof/Word.lean ====
section
/-!
DEFINITION. The machine's words and their plainest arithmetic (spec/00_scope.md R8: bytes, nibbles, 64-bit values,
all unsigned, addition on program-counter values modulo 2^64).
-/
namespace Sys2Proof

/-- A program-counter or immediate value: PCW = IMMW = 64 bits (00_scope.md R7). -/
abbrev Word := BitVec 64

/-- A stream byte (00_scope.md R8). -/
abbrev Byte := BitVec 8

/-- An opcode, a function code or a register specifier: NIBW = 4 bits (00_scope.md R7). -/
abbrev Nibble := BitVec 4

end Sys2Proof
end

