-- ==== Sys2Proof/Config.lean ====
section
/-!
DEFINITION. The decoder's parameters with a fixed value (spec/00_scope.md R7). STREAM, N and START, which R7 leaves
open, are carried by State or given to `resetWith`. The spec leaves no result of an instruction undefined, so there is
no free value here.
-/
namespace Sys2Proof.Config

/-- IMMW in bytes: an immediate occupies eight stream bytes (00_scope.md R7). -/
abbrev immBytes : Nat := 8

/-- MAXLEN, the longest declared length in bytes (00_scope.md R7). -/
abbrev maxLen : Nat := 10

/-- What a listed-nowhere offset below N holds in the model's sparse form of STREAM. A choice of representation only:
every byte sequence is representable whatever it is. DESIGN CHOICE, safe, log 3. -/
def unlistedByte : Byte := 0

end Sys2Proof.Config
end

