-- ==== Sys2Proof/Syntax.lean ====
section
/-!
DEFINITION. The instruction set as syntax: opcodes, mnemonics, and one constructor of `Instr` per row of
spec/opcode_table.json. An instruction's operands are what the step's secondary reads obtained (40_decode_step.md R95
steps 6 and 7): the decoder also meets instructions that the stream's end cuts short, and the spec gives those an
effect of their own (R98). DESIGN CHOICE, safe, log 11.
-/
namespace Sys2Proof

/-- The 12 legal opcodes (30_encoding.md R57), named as its table names them; `regMove`, `opq` and `jxx` are the class
names of opcodes 2, 6 and 7, never mnemonics (R62). -/
inductive Opcode where
  | halt | nop | regMove | irmovq | rmmovq | mrmovq | opq | jxx | call | ret | pushq | popq
deriving DecidableEq, Repr

/-- The `mnemonic` field's enumeration of 30 values (40_decode_step.md R83). -/
inductive Mnemonic where
  | halt | nop
  | rrmovq | cmovle | cmovl | cmove | cmovne | cmovge | cmovg
  | irmovq | rmmovq | mrmovq
  | addq | subq | andq | xorq | mulq | divq | modq
  | jmp | jle | jl | je | jne | jge | jg
  | call | ret | pushq | popq
deriving DecidableEq, Repr

/-- The two register specifiers of a register byte (30_encoding.md R53): numbers, never interpreted (R56, R66). -/
structure Specifiers where
  rA : Nibble
  rB : Nibble
deriving DecidableEq, Repr

/-- What the register-byte read obtained: `none` when the stream had ended (40_decode_step.md R95 step 6). -/
abbrev RegRead := Option Specifiers

/-- The bytes the immediate read obtained, in stream order, at most eight (40_decode_step.md R90, R95 step 7). -/
abbrev ImmRead := List Byte

/-- One constructor per row of spec/opcode_table.json, in the table's order. -/
inductive Instr where
  | halt
  | nop
  | rrmovq (regs : RegRead)
  | cmovle (regs : RegRead)
  | cmovl (regs : RegRead)
  | cmove (regs : RegRead)
  | cmovne (regs : RegRead)
  | cmovge (regs : RegRead)
  | cmovg (regs : RegRead)
  | irmovq (regs : RegRead) (imm : ImmRead)
  | rmmovq (regs : RegRead) (imm : ImmRead)
  | mrmovq (regs : RegRead) (imm : ImmRead)
  | addq (regs : RegRead)
  | subq (regs : RegRead)
  | andq (regs : RegRead)
  | xorq (regs : RegRead)
  | mulq (regs : RegRead)
  | divq (regs : RegRead)
  | modq (regs : RegRead)
  | jmp (imm : ImmRead)
  | jle (imm : ImmRead)
  | jl (imm : ImmRead)
  | je (imm : ImmRead)
  | jne (imm : ImmRead)
  | jge (imm : ImmRead)
  | jg (imm : ImmRead)
  | call (imm : ImmRead)
  | ret
  | pushq (regs : RegRead)
  | popq (regs : RegRead)
deriving DecidableEq, Repr

/-- The row of the opcode table that an instruction is. -/
def Instr.mnemonic : Instr → Mnemonic
  | .halt => .halt
  | .nop => .nop
  | .rrmovq _ => .rrmovq
  | .cmovle _ => .cmovle
  | .cmovl _ => .cmovl
  | .cmove _ => .cmove
  | .cmovne _ => .cmovne
  | .cmovge _ => .cmovge
  | .cmovg _ => .cmovg
  | .irmovq _ _ => .irmovq
  | .rmmovq _ _ => .rmmovq
  | .mrmovq _ _ => .mrmovq
  | .addq _ => .addq
  | .subq _ => .subq
  | .andq _ => .andq
  | .xorq _ => .xorq
  | .mulq _ => .mulq
  | .divq _ => .divq
  | .modq _ => .modq
  | .jmp _ => .jmp
  | .jle _ => .jle
  | .jl _ => .jl
  | .je _ => .je
  | .jne _ => .jne
  | .jge _ => .jge
  | .jg _ => .jg
  | .call _ => .call
  | .ret => .ret
  | .pushq _ => .pushq
  | .popq _ => .popq

/-- The register-byte operand, `none` also where the format has none. -/
def Instr.regs : Instr → RegRead
  | .halt | .nop | .ret => none
  | .rrmovq r | .cmovle r | .cmovl r | .cmove r | .cmovne r | .cmovge r | .cmovg r => r
  | .irmovq r _ | .rmmovq r _ | .mrmovq r _ => r
  | .addq r | .subq r | .andq r | .xorq r | .mulq r | .divq r | .modq r => r
  | .jmp _ | .jle _ | .jl _ | .je _ | .jne _ | .jge _ | .jg _ | .call _ => none
  | .pushq r | .popq r => r

/-- The immediate operand's bytes, `[]` also where the format has none. -/
def Instr.imm : Instr → ImmRead
  | .halt | .nop | .ret => []
  | .rrmovq _ | .cmovle _ | .cmovl _ | .cmove _ | .cmovne _ | .cmovge _ | .cmovg _ => []
  | .irmovq _ m | .rmmovq _ m | .mrmovq _ m => m
  | .addq _ | .subq _ | .andq _ | .xorq _ | .mulq _ | .divq _ | .modq _ => []
  | .jmp m | .jle m | .jl m | .je m | .jne m | .jge m | .jg m | .call m => m
  | .pushq _ | .popq _ => []

end Sys2Proof
end

