-- ==== Sys2Proof/WellFormed.lean ====
section
/-!
DEFINITION. Which terms of `Instr` the reads of a step can obtain. The spec restricts no operand value (30_encoding.md
R66); what it restricts is how many bytes a read obtains (20_memory.md R33, R34; 40_decode_step.md R96).
-/
namespace Sys2Proof

/-- The immediate read asks for eight bytes and obtains at most those (20_memory.md R34). -/
def immFits (imm : ImmRead) : Bool := decide (imm.length ≤ Config.immBytes)

/-- A missing register byte means that the stream has ended, so the immediate read then obtains nothing
(40_decode_step.md R96). -/
def immNeedsRegs (regs : RegRead) (imm : ImmRead) : Bool := regs.isSome || imm.isEmpty

/-- The instruction is one that the reads of some step obtain, in full or cut short by the end of the stream. -/
def Instr.WellFormed : Instr → Bool
  | .halt | .nop | .ret => true
  | .rrmovq _ | .cmovle _ | .cmovl _ | .cmove _ | .cmovne _ | .cmovge _ | .cmovg _ => true
  | .irmovq r m | .rmmovq r m | .mrmovq r m => immFits m && immNeedsRegs r m
  | .addq _ | .subq _ | .andq _ | .xorq _ | .mulq _ | .divq _ | .modq _ => true
  | .jmp m | .jle m | .jl m | .je m | .jne m | .jge m | .jg m | .call m => immFits m
  | .pushq _ | .popq _ => true

/-- Every byte of the declared length was obtained (40_decode_step.md R95 step 8 finds no truncation). -/
def Instr.complete : Instr → Bool
  | .halt | .nop | .ret => true
  | .rrmovq r | .cmovle r | .cmovl r | .cmove r | .cmovne r | .cmovge r | .cmovg r => r.isSome
  | .irmovq r m | .rmmovq r m | .mrmovq r m => r.isSome && decide (m.length = Config.immBytes)
  | .addq r | .subq r | .andq r | .xorq r | .mulq r | .divq r | .modq r => r.isSome
  | .jmp m | .jle m | .jl m | .je m | .jne m | .jge m | .jg m | .call m => decide (m.length = Config.immBytes)
  | .pushq r | .popq r => r.isSome

end Sys2Proof
end

