-- ==== Sys2Proof/Decode.lean ====
section
/-!
DEFINITION. The opcode classifier, the register-byte splitter, the decoder from bytes to an instruction, and the
encoder (spec/30_encoding.md; spec/40_decode_step.md R80 to R86). Total on every byte list; what it rejects it names.
-/
namespace Sys2Proof

/-- A byte's high nibble `b[7:4]` (00_scope.md R8). -/
def highNibble (b : Byte) : Nibble := b.extractLsb' 4 4

/-- A byte's low nibble `b[3:0]` (00_scope.md R8). -/
def lowNibble (b : Byte) : Nibble := b.extractLsb' 0 4

/-- The byte `hi || lo` (30_encoding.md R51, R53). -/
def joinNibbles (hi lo : Nibble) : Byte := hi ++ lo

/-- The opcode a nibble names; `none` is an illegal opcode (40_decode_step.md R80; numbers 30_encoding.md R57). Numbers
8 to 11 are the spec's decision D24. PRESUMED, unsafe, log 10. -/
def Opcode.ofNibble (n : Nibble) : Option Opcode :=
  match n.toNat with
  | 0 => some .halt
  | 1 => some .nop
  | 2 => some .regMove
  | 3 => some .irmovq
  | 4 => some .rmmovq
  | 5 => some .mrmovq
  | 6 => some .opq
  | 7 => some .jxx
  | 8 => some .call
  | 9 => some .ret
  | 10 => some .pushq
  | 11 => some .popq
  | _ => none

/-- The declared length `Len` in bytes (40_decode_step.md R81). -/
def Opcode.len : Opcode → Nat
  | .halt | .nop | .ret => 1
  | .regMove | .opq | .pushq | .popq => 2
  | .jxx | .call => 9
  | .irmovq | .rmmovq | .mrmovq => 10

/-- `NeedRegs` (40_decode_step.md R82). -/
def Opcode.needRegs (o : Opcode) : Bool := o.len == 2 || o.len == 10

/-- `NeedImm` (40_decode_step.md R82). -/
def Opcode.needImm (o : Opcode) : Bool := o.len == 9 || o.len == 10

/-- The register-move names by function code (30_encoding.md R58). -/
def regMoveNames : List Mnemonic := [.rrmovq, .cmovle, .cmovl, .cmove, .cmovne, .cmovge, .cmovg]

/-- The arithmetic names by function code (30_encoding.md R59). -/
def opqNames : List Mnemonic := [.addq, .subq, .andq, .xorq, .mulq, .divq, .modq]

/-- The jump names by function code (30_encoding.md R60). -/
def jxxNames : List Mnemonic := [.jmp, .jle, .jl, .je, .jne, .jge, .jg]

/-- An opcode's legal names by function code: seven for opcodes 2, 6 and 7, one for every other (40_decode_step.md R83). -/
def Opcode.names : Opcode → List Mnemonic
  | .halt => [.halt]
  | .nop => [.nop]
  | .regMove => regMoveNames
  | .irmovq => [.irmovq]
  | .rmmovq => [.rmmovq]
  | .mrmovq => [.mrmovq]
  | .opq => opqNames
  | .jxx => jxxNames
  | .call => [.call]
  | .ret => [.ret]
  | .pushq => [.pushq]
  | .popq => [.popq]

/-- `Mnemonic(icode, ifun)`; `none` exactly where `FunLegal` is false (40_decode_step.md R83, R84). -/
def Opcode.mnemonic (o : Opcode) (ifun : Nibble) : Option Mnemonic := o.names[ifun.toNat]?

/-- What the classifier answers (40_decode_step.md R85). -/
inductive Classification where
  | badOpcode (icode : Nibble)
  | badFunction (ifun : Nibble)
  | legal (opcode : Opcode) (ifun : Nibble) (mnemonic : Mnemonic)
deriving DecidableEq, Repr

/-- `Classify(h)`, the opcode test before the function-code test (40_decode_step.md R85). -/
def classify (h : Byte) : Classification :=
  match Opcode.ofNibble (highNibble h) with
  | none => .badOpcode (highNibble h)
  | some o =>
    match o.mnemonic (lowNibble h) with
    | none => .badFunction (lowNibble h)
    | some mn => .legal o (lowNibble h) mn

/-- `SplitRegs(b)` (40_decode_step.md R86). -/
def splitRegs (b : Byte) : Specifiers := { rA := highNibble b, rB := lowNibble b }

/-- The register-byte read on the bytes after the header: made only where the opcode has a register byte, `none` when
the bytes have ended (40_decode_step.md R95 step 6). Answers what it obtained and the bytes after it. -/
def takeRegs (need : Bool) (bytes : List Byte) : RegRead × List Byte :=
  match need, bytes with
  | true, b :: rest => (some (splitRegs b), rest)
  | true, [] => (none, [])
  | false, rest => (none, rest)

/-- The immediate read: up to eight bytes, made only where the opcode has an immediate, whether or not the register byte
was obtained (40_decode_step.md R95 step 7, R96). -/
def takeImm (need : Bool) (bytes : List Byte) : ImmRead × List Byte :=
  if need then (bytes.take Config.immBytes, bytes.drop Config.immBytes) else ([], bytes)

/-- The instruction of a mnemonic, with the operands its format has. -/
def Mnemonic.toInstr (mn : Mnemonic) (regs : RegRead) (imm : ImmRead) : Instr :=
  match mn with
  | .halt => .halt
  | .nop => .nop
  | .rrmovq => .rrmovq regs
  | .cmovle => .cmovle regs
  | .cmovl => .cmovl regs
  | .cmove => .cmove regs
  | .cmovne => .cmovne regs
  | .cmovge => .cmovge regs
  | .cmovg => .cmovg regs
  | .irmovq => .irmovq regs imm
  | .rmmovq => .rmmovq regs imm
  | .mrmovq => .mrmovq regs imm
  | .addq => .addq regs
  | .subq => .subq regs
  | .andq => .andq regs
  | .xorq => .xorq regs
  | .mulq => .mulq regs
  | .divq => .divq regs
  | .modq => .modq regs
  | .jmp => .jmp imm
  | .jle => .jle imm
  | .jl => .jl imm
  | .je => .je imm
  | .jne => .jne imm
  | .jge => .jge imm
  | .jg => .jg imm
  | .call => .call imm
  | .ret => .ret
  | .pushq => .pushq regs
  | .popq => .popq regs

/-- What the bytes from the cursor on begin with. -/
inductive DecodeResult where
  /-- no header byte: the stream has ended (60_exceptions.md R203) -/
  | noHeader
  /-- illegal opcode, by its value (60_exceptions.md R200) -/
  | badOpcode (icode : Nibble)
  /-- illegal function code, by its value (60_exceptions.md R201) -/
  | badFunction (ifun : Nibble)
  /-- an instruction, perhaps cut short by the end of the bytes, and the bytes after it -/
  | instr (i : Instr) (rest : List Byte)
deriving DecidableEq, Repr

/-- The decoder on a byte list (40_decode_step.md R95 steps 1 to 7). -/
def decode (bytes : List Byte) : DecodeResult :=
  match bytes with
  | [] => .noHeader
  | h :: afterHeader =>
    match classify h with
    | .badOpcode icode => .badOpcode icode
    | .badFunction ifun => .badFunction ifun
    | .legal o _ mn =>
      let r := takeRegs o.needRegs afterHeader
      let m := takeImm o.needImm r.2
      .instr (mn.toInstr r.1 m.1) m.2

/-! The encoder, written from the header bytes of 30_encoding.md R58 to R61 and the formats of R52. -/

/-- The header byte of a mnemonic, which also carries the `mnemonic` field in hardware (30_encoding.md R58 to R61;
40_decode_step.md R83). -/
def Mnemonic.header : Mnemonic → Byte
  | .halt => 0x00
  | .nop => 0x10
  | .rrmovq => 0x20
  | .cmovle => 0x21
  | .cmovl => 0x22
  | .cmove => 0x23
  | .cmovne => 0x24
  | .cmovge => 0x25
  | .cmovg => 0x26
  | .irmovq => 0x30
  | .rmmovq => 0x40
  | .mrmovq => 0x50
  | .addq => 0x60
  | .subq => 0x61
  | .andq => 0x62
  | .xorq => 0x63
  | .mulq => 0x64
  | .divq => 0x65
  | .modq => 0x66
  | .jmp => 0x70
  | .jle => 0x71
  | .jl => 0x72
  | .je => 0x73
  | .jne => 0x74
  | .jge => 0x75
  | .jg => 0x76
  | .call => 0x80
  | .ret => 0x90
  | .pushq => 0xA0
  | .popq => 0xB0

/-- The display name of a mnemonic (30_encoding.md R70; 40_decode_step.md R83). -/
def Mnemonic.display : Mnemonic → String
  | .halt => "halt"
  | .nop => "nop"
  | .rrmovq => "rrmovq"
  | .cmovle => "cmovle"
  | .cmovl => "cmovl"
  | .cmove => "cmove"
  | .cmovne => "cmovne"
  | .cmovge => "cmovge"
  | .cmovg => "cmovg"
  | .irmovq => "irmovq"
  | .rmmovq => "rmmovq"
  | .mrmovq => "mrmovq"
  | .addq => "addq"
  | .subq => "subq"
  | .andq => "andq"
  | .xorq => "xorq"
  | .mulq => "mulq"
  | .divq => "divq"
  | .modq => "modq"
  | .jmp => "jmp"
  | .jle => "jle"
  | .jl => "jl"
  | .je => "je"
  | .jne => "jne"
  | .jge => "jge"
  | .jg => "jg"
  | .call => "call"
  | .ret => "ret"
  | .pushq => "pushq"
  | .popq => "popq"

/-- The register byte `rA || rB`, or no byte where none was obtained (30_encoding.md R53). -/
def encodeRegs : RegRead → List Byte
  | none => []
  | some r => [joinNibbles r.rA r.rB]

/-- The bytes of an instruction in stream order: the header byte, the register byte of formats L2 and L10, the
immediate bytes of formats L9 and L10 (30_encoding.md R52). -/
def encode (i : Instr) : List Byte := i.mnemonic.header :: (encodeRegs i.regs ++ i.imm)

/-- The ten bytes of a word of spec/opcode_table.json: bit 0 is bit 0 of the first byte, bits above `nbits` are 0. -/
def tableBytes (nbits w : Nat) : List Byte :=
  let bits := w % 2 ^ nbits
  [0, 1, 2, 3, 4, 5, 6, 7, 8, 9].map fun j => BitVec.ofNat 8 (bits / 2 ^ (8 * j))

/-- The instruction the decoder reads from a word numbered as spec/opcode_table.json numbers it. -/
def decodeTableWord (nbits w : Nat) : Option Instr :=
  match decode (tableBytes nbits w) with
  | .instr i _ => some i
  | .noHeader | .badOpcode _ | .badFunction _ => none

end Sys2Proof
end

