-- ==== Sys2Proof/Machine/State.lean ====
section
/-!
DEFINITION. The decoder's state (spec/10_state.md), what it delivers to the caller, and why a step can stop.
-/
namespace Sys2Proof.Machine

/-- The byte source STREAM of N bytes (20_memory.md R30, R31), sparse and in one canonical form (`Memory.wf`): an offset
below `size` that no cell lists holds `Config.unlistedByte`. STREAM and N are parameters of the step (10_state.md R27);
State carries them. DESIGN CHOICE, safe, logs 1 and 3. -/
structure Memory where
  cells : List Host.Cell
  /-- N, with 0 <= N < 2^64 (00_scope.md R7) -/
  size : Fin (2 ^ 64)
deriving DecidableEq, Repr

/-- The `status` register's five legal values (10_state.md R18). `run` is RUN, `ended` END. -/
inductive Status where
  | run | ended | errOpcode | errFunction | errMemory
deriving DecidableEq, Repr

/-- The decoded-instruction record (10_state.md R22). `registerA` and `registerB` are `none` where the spec says
`absent`; `immediateValue` is 0 and not to be used where `immediateValid` is false (R23 item 6; unsafe, log 8). -/
structure DecodedRecord where
  programCounter : Word
  opcode : Nibble
  functionCode : Nibble
  mnemonic : Mnemonic
  registersPresent : Bool
  registersValid : Bool
  registerA : Option Nibble
  registerB : Option Nibble
  immediateValuePresent : Bool
  immediateValid : Bool
  immediateValue : Word
  nextProgramCounter : Word
deriving DecidableEq, Repr

/-- The terminal outcomes with their payloads (40_decode_step.md R94; 60_exceptions.md R200 to R203). -/
inductive Terminal where
  | endOfStream
  | invalidOpcode (value : Nibble) (pc : Word)
  | invalidFunctionCode (value : Nibble) (pc : Word)
  | memoryAccessError (pc : Word) (declaredLength bytesRead : Nibble)
deriving DecidableEq, Repr

/-- What a step makes visible to the caller. The outcome Truncated of 40_decode_step.md R94 is a partial record and then
a `memoryAccessError`, in that order (R99). -/
inductive Event where
  | full (r : DecodedRecord)
  | partialRecord (r : DecodedRecord)
  | terminal (t : Terminal)
deriving DecidableEq, Repr

/-- The decoder's state: `pc`, `cur`, `status` and the four error latches (10_state.md R10), the byte source the step
reads, and two fields of the model's own. -/
structure State where
  /-- program counter (10_state.md R12) -/
  pc : Word
  /-- stream cursor (10_state.md R16) -/
  cur : Word
  /-- status register (10_state.md R18) -/
  status : Status
  /-- ERRPC (10_state.md R19) -/
  errPc : Word
  /-- ERRVAL (10_state.md R19) -/
  errVal : Nibble
  /-- ERRLEN (10_state.md R19) -/
  errLen : Nibble
  /-- ERRCNT (10_state.md R19) -/
  errCnt : Nibble
  /-- STREAM and N, constant from Reset to the end of the run (20_memory.md R45) -/
  stream : Memory
  /-- the model's own: a Reset has been performed (70_reset_and_hazards.md R231; log 6) -/
  resetDone : Bool
  /-- the model's own: what this run's steps have delivered, oldest first (40_decode_step.md R99; log 5) -/
  events : List Event
deriving DecidableEq, Repr

/-- No step stops with a fault: every error of the spec is an outcome that a step takes (60_exceptions.md R206). Log 20. -/
inductive Fault where
deriving DecidableEq, Repr

/-- Why the model offers no step. -/
inductive Refusal where
  /-- Raised by exec for an instruction that has no meaning yet; no arm raises it. Safe. -/
  | notModelled (mnemonic : String)
  /-- Raised by `step` before the first Reset: "a model refuses a step requested before `Reset`"
  (70_reset_and_hazards.md R231). Safe. -/
  | stepBeforeReset
deriving DecidableEq, Repr

/-- The machine right after `Reset` with the empty stream and no starting offset (10_state.md R26; 70_reset_and_hazards.md
R230). The stream is an open parameter: DESIGN CHOICE, safe, log 2. The latches, unspecified by R26, are 0: DESIGN
CHOICE, unsafe, log 4. -/
def State.reset : State :=
  { pc := 0, cur := 0, status := .run, errPc := 0, errVal := 0, errLen := 0, errCnt := 0,
    stream := { cells := [], size := 0 }, resetDone := true, events := [] }

end Sys2Proof.Machine
end

