-- ==== Sys2Proof/Machine/Ops.lean ====
section
/-!
DEFINITION. The named operations over the byte source and the registers: reading and loading STREAM, StreamRead,
raising a terminal outcome, delivering a latched one again, and Reset (spec/20_memory.md R30 to R36; 40_decode_step.md
R102; 60_exceptions.md R200 to R210; 70_reset_and_hazards.md R230 to R232).
-/
namespace Sys2Proof.Machine

/-! ## The byte source -/

/-- The byte a cell list holds at an offset. -/
def lookup : List Host.Cell → Nat → Byte
  | [], _ => Config.unlistedByte
  | (c, v) :: rest, a => if c = a then v else lookup rest a

/-- What an offset that no cell lists reads as: a byte below N, nothing from N on (20_memory.md R31). -/
def Memory.unlisted (m : Memory) (a : Nat) : Option Byte :=
  if a < m.size.val then some Config.unlistedByte else none

/-- The byte at an offset; `none` is unavailable (20_memory.md R31: available iff `0 <= i < N`). -/
def Memory.byteAt? (m : Memory) (a : Nat) : Option Byte :=
  if a < m.size.val then some (lookup m.cells a) else none

/-- `MemRead(addr, n)`, defined when `addr + n <= N` (00_scope.md R8). -/
def Memory.memRead (m : Memory) : Nat → Nat → List Byte
  | _, 0 => []
  | a, n + 1 => lookup m.cells a :: m.memRead (a + 1) n

/-- How many of `n` bytes are available from an offset: `min(n, max(0, N - a))` (20_memory.md R33). -/
def Memory.available (m : Memory) (a n : Nat) : Nat := min n (m.size.val - a)

/-- The longest available prefix of the `n` bytes at an offset (20_memory.md R33). -/
def Memory.readPrefix (m : Memory) (a n : Nat) : List Byte := m.memRead a (m.available a n)

/-- Cells strictly rising from `lo` on, below `hi`, none holding what an unlisted offset reads as. -/
def cellsWf (lo hi : Nat) : List Host.Cell → Bool
  | [] => true
  | (c, v) :: rest => decide (lo ≤ c) && decide (c < hi) && decide (v ≠ Config.unlistedByte) && cellsWf (c + 1) hi rest

/-- The canonical form: offsets strictly rising and below N, no cell equal to what an unlisted offset reads as. -/
def Memory.wf (m : Memory) : Bool := cellsWf 0 m.size.val m.cells

/-- Puts a byte into a cell list, keeping it canonical: the value of an unlisted offset removes the cell. -/
def writeCells : List Host.Cell → Nat → Byte → List Host.Cell
  | [], a, b => if b = Config.unlistedByte then [] else [(a, b)]
  | (c, v) :: rest, a, b =>
    if a < c then
      if b = Config.unlistedByte then (c, v) :: rest else (a, b) :: (c, v) :: rest
    else if a = c then
      if b = Config.unlistedByte then rest else (a, b) :: rest
    else (c, v) :: writeCells rest a b

/-- Sets one byte of the byte source; an offset from N on is no place of it, and nothing changes. Only the environment
uses it, to fill the stream before a run: the decoder has no store (20_memory.md R32, R36). -/
def Memory.write (m : Memory) (a : Nat) (b : Byte) : Memory :=
  if a < m.size.val then { m with cells := writeCells m.cells a b } else m

/-- The byte source lengthened to at least `n` bytes, never to 2^64 or more (00_scope.md R7: `N < 2^64`). -/
def Memory.grow (m : Memory) (n : Nat) : Memory :=
  { m with size := ⟨max m.size.val (min n (2 ^ 64 - 1)), by have := m.size.isLt; omega⟩ }

/-- Sets the bytes from an offset on, one after another. -/
def Memory.writeAll (m : Memory) (a : Nat) : List Byte → Memory
  | [] => m
  | b :: rest => (m.write a b).writeAll (a + 1) rest

/-- Bytes placed at an offset by the environment, the byte source lengthened to hold them (20_memory.md R32: how STREAM
is filled "is the platform's affair"). -/
def Memory.load (m : Memory) (a : Nat) (bytes : List Byte) : Memory :=
  (m.grow (a + bytes.length)).writeAll a bytes

/-- The byte source made of the given bytes, the first at offset 0 (20_memory.md R30). -/
def Memory.ofBytes (bytes : List Byte) : Memory := Memory.load { cells := [], size := 0 } 0 bytes

/-! ## Cursor and output -/

/-- Moves the cursor past `n` bytes (20_memory.md R33: `cur <- cur + k`). -/
def State.consume (s : State) (n : Nat) : State := { s with cur := s.cur + BitVec.ofNat 64 n }

/-- `StreamRead(n)`: the count obtained, the bytes, and the state with the cursor moved (20_memory.md R33). -/
def streamRead (n : Nat) (s : State) : Nat × List Byte × State :=
  let k := s.stream.available s.cur.toNat n
  (k, s.stream.memRead s.cur.toNat k, s.consume k)

/-- The bytes at the cursor that a step may read, at most MAXLEN. The step's reads of 1, 1 and 8 bytes obtain a prefix of
these, since an n-byte read is n one-byte reads that stop at the first unavailable byte (20_memory.md R33, R34; DEDUCED,
safe, log 12). -/
def State.fetchBytes (s : State) : List Byte := s.stream.readPrefix s.cur.toNat Config.maxLen

/-- What stands at the cursor. -/
def State.fetch (s : State) : DecodeResult := decode s.fetchBytes

/-- Makes an event visible to the caller (00_scope.md R8 `emit`; 40_decode_step.md R99). -/
def State.emit (s : State) (e : Event) : State := { s with events := s.events ++ [e] }

/-- `pc <- target` (00_scope.md R8). -/
def State.setPc (s : State) (target : Word) : State := { s with pc := target }

/-! ## Terminal outcomes -/

/-- The status a terminal outcome enters (10_state.md R18). -/
def Terminal.status : Terminal → Status
  | .endOfStream => .ended
  | .invalidOpcode _ _ => .errOpcode
  | .invalidFunctionCode _ _ => .errFunction
  | .memoryAccessError _ _ _ => .errMemory

/-- Entry into a terminal outcome, the one operation for all four: the status, the latches of the outcome's row and no
other, and the outcome itself delivered; `pc` and `cur` stay (60_exceptions.md R206: with a dash "the latch is not
written"; its old bits stay in State though they hold no meaning, DESIGN CHOICE, log 7). -/
def State.raise (s : State) (t : Terminal) : State :=
  (match t with
    | .endOfStream => { s with status := .ended }
    | .invalidOpcode value pc => { s with status := .errOpcode, errPc := pc, errVal := value }
    | .invalidFunctionCode value pc => { s with status := .errFunction, errPc := pc, errVal := value }
    | .memoryAccessError pc len cnt => { s with status := .errMemory, errPc := pc, errLen := len, errCnt := cnt }).emit (.terminal t)

/-- The terminal outcome already latched, `none` while RUN; for ERR_MEMORY without the partial record
(40_decode_step.md R102). -/
def State.latched? (s : State) : Option Terminal :=
  match s.status with
  | .run => none
  | .ended => some .endOfStream
  | .errOpcode => some (.invalidOpcode s.errVal s.errPc)
  | .errFunction => some (.invalidFunctionCode s.errVal s.errPc)
  | .errMemory => some (.memoryAccessError s.errPc s.errLen s.errCnt)

/-- `status` as the 3-bit register the caller reads (10_state.md R18; the numbers are arbitrary identities, log 19). -/
def Status.code : Status → BitVec 3
  | .run => 0
  | .ended => 1
  | .errOpcode => 2
  | .errFunction => 3
  | .errMemory => 4

/-- ERRPC as the caller may read it: `none` where it holds no meaning (10_state.md R19, R26). -/
def State.errPc? (s : State) : Option Word :=
  match s.status with
  | .run | .ended => none
  | .errOpcode | .errFunction | .errMemory => some s.errPc

/-- ERRVAL as the caller may read it (10_state.md R19). -/
def State.errVal? (s : State) : Option Nibble :=
  match s.status with
  | .run | .ended | .errMemory => none
  | .errOpcode | .errFunction => some s.errVal

/-- ERRLEN as the caller may read it (10_state.md R19). -/
def State.errLen? (s : State) : Option Nibble :=
  match s.status with
  | .run | .ended | .errOpcode | .errFunction => none
  | .errMemory => some s.errLen

/-- ERRCNT as the caller may read it (10_state.md R19). -/
def State.errCnt? (s : State) : Option Nibble :=
  match s.status with
  | .run | .ended | .errOpcode | .errFunction => none
  | .errMemory => some s.errCnt

/-! ## Reset: the only way out of a terminal status (60_exceptions.md R210: there is no return) -/

/-- `Reset(STREAM, START)`: a new run on the given byte source, from the given offset or 0; it reads nothing, checks
nothing and discards the run before it (70_reset_and_hazards.md R230 to R232). Latches as in `State.reset` (log 4);
the event list begins anew (log 14). -/
def resetWith (stream : Memory) (start : Option Word) : State :=
  { State.reset with stream := stream, pc := start.getD 0, cur := start.getD 0 }

end Sys2Proof.Machine
end

