-- ==== Sys2Proof/Machine/Operands.lean ====
section
/-!
DEFINITION. The immediate extractor and reconstructor: the value of an immediate from the bytes obtained, and its raw
bytes back (spec/30_encoding.md R55; spec/40_decode_step.md R90, R92). The register-byte splitter stands in Decode.lean.
-/
namespace Sys2Proof.Machine

/-- `ImmValue(k, m)` with k the length of m: little-endian, byte j at bits 8j+7 to 8j, missing bytes zero
(40_decode_step.md R90, the sum of its terms one byte at a time). No sign extension (30_encoding.md R55). -/
def immValue : ImmRead → Word
  | [] => 0
  | b :: rest => BitVec.setWidth 64 b ||| immValue rest <<< 8

/-- The eight raw bytes `imm[8j+7 : 8j]` of an immediate, in stream order (40_decode_step.md R92; 10_state.md R25). -/
def rawBytes (v : Word) : List Byte := [0, 1, 2, 3, 4, 5, 6, 7].map fun j => v.extractLsb' (8 * j) 8

/-- The record's immediate as a consumer may use it: `none` where it is not valid (40_decode_step.md R91). -/
def DecodedRecord.immediate? (r : DecodedRecord) : Option Word :=
  if r.immediateValid then some r.immediateValue else none

end Sys2Proof.Machine
end

