-- ==== Sys2Proof/Machine/Flags.lean ====
section
/-!
DEFINITION. The one-bit marks of a step and of its record. The decoder has no condition codes (spec/10_state.md R21);
these are the present and valid marks (R22, R23; 40_decode_step.md R82, R91), the sufficiency test of R95 step 8, and
the byte count of R97.
-/
namespace Sys2Proof.Machine

/-- `registersValid`: the register byte was obtained (10_state.md R22). -/
def registersValid (regs : RegRead) : Bool := regs.isSome

/-- `immediateValid = (k >= 1)` (40_decode_step.md R91). -/
def immediateValid (imm : ImmRead) : Bool := decide (1 ≤ imm.length)

/-- `sufficient = (k = 8)` for the immediate read (40_decode_step.md R91). -/
def immediateSufficient (imm : ImmRead) : Bool := decide (imm.length = Config.immBytes)

/-- A required secondary read obtained fewer bytes than needed (40_decode_step.md R95 step 8). -/
def truncated (o : Opcode) (regs : RegRead) (imm : ImmRead) : Bool :=
  (o.needRegs && !registersValid regs) || (o.needImm && !immediateSufficient imm)

/-- `bytesRead = 1 + kr + ki` (40_decode_step.md R97). -/
def bytesRead (regs : RegRead) (imm : ImmRead) : Nat := 1 + (if registersValid regs then 1 else 0) + imm.length

end Sys2Proof.Machine
end

