-- ==== Sys2Proof/Machine/Formats.lean ====
section
/-!
DEFINITION. The step common to all instructions once its reads are made (spec/40_decode_step.md R95 from step 7 on), and
its four formats (30_encoding.md R52; the common steps R129, R159, R180). Every instruction's meaning is one of the four
at its own opcode, function code and mnemonic.
-/
namespace Sys2Proof.Machine

/-- The record of one instruction (10_state.md R22; 40_decode_step.md R95), full or partial. -/
def buildRecord (p : Word) (o : Opcode) (icode ifun : Nibble) (mn : Mnemonic) (regs : RegRead) (imm : ImmRead) :
    DecodedRecord :=
  { programCounter := p
    opcode := icode
    functionCode := ifun
    mnemonic := mn
    registersPresent := o.needRegs
    registersValid := registersValid regs
    registerA := regs.map Specifiers.rA
    registerB := regs.map Specifiers.rB
    immediateValuePresent := o.needImm
    immediateValid := immediateValid imm
    immediateValue := immValue imm
    nextProgramCounter := p + BitVec.ofNat 64 o.len }

/-- The cursor past the bytes obtained; then either the full record and the advance of `pc`, or the partial record and
after it MemoryAccessError (40_decode_step.md R95 steps 8 and 9, R97, R99). Meant for `status = RUN`: `step` answers a
terminal status before it dispatches (R102; log 21). -/
def deliver (o : Opcode) (icode ifun : Nibble) (mn : Mnemonic) (regs : RegRead) (imm : ImmRead) (s : State) :
    Host.Outcome State Fault Refusal :=
  let r := buildRecord s.pc o icode ifun mn regs imm
  let k := bytesRead regs imm
  let afterReads := s.consume k
  if truncated o regs imm then
    .next ((afterReads.emit (.partialRecord r)).raise
      (.memoryAccessError s.pc (BitVec.ofNat 4 o.len) (BitVec.ofNat 4 k)))
  else
    .next ((afterReads.emit (.full r)).setPc r.nextProgramCounter)

/-- Format L1: the header byte alone, never truncated (40_decode_step.md R98). -/
def deliverL1 (o : Opcode) (icode ifun : Nibble) (mn : Mnemonic) (s : State) : Host.Outcome State Fault Refusal :=
  deliver o icode ifun mn none [] s

/-- Format L2, the common step of 42_len2_rrmovq_opq_push_pop.md R129. -/
def deliverL2 (o : Opcode) (icode ifun : Nibble) (mn : Mnemonic) (regs : RegRead) (s : State) :
    Host.Outcome State Fault Refusal :=
  deliver o icode ifun mn regs [] s

/-- Format L9, the common step of 43_len9_jxx_call.md R159. -/
def deliverL9 (o : Opcode) (icode ifun : Nibble) (mn : Mnemonic) (imm : ImmRead) (s : State) :
    Host.Outcome State Fault Refusal :=
  deliver o icode ifun mn none imm s

/-- Format L10, the common step of 44_len10_irmovq_rmmovq_mrmovq.md R180. -/
def deliverL10 (o : Opcode) (icode ifun : Nibble) (mn : Mnemonic) (regs : RegRead) (imm : ImmRead) (s : State) :
    Host.Outcome State Fault Refusal :=
  deliver o icode ifun mn regs imm s

end Sys2Proof.Machine
end

