-- ==== Sys2Proof/Machine/Len1.lean ====
section
/-!
DEFINITION. The instructions of format L1: halt, nop, ret (spec/41_len1_halt_nop_ret.md). Each meaning is the format's common step at
the instruction's own opcode number, function code and mnemonic, in every operand form.
-/
namespace Sys2Proof.Machine

/-- `halt` (R120). It does not stop the decoder. -/
def execHalt (s : State) : Host.Outcome State Fault Refusal :=
  deliverL1 .halt 0 0 .halt s

/-- `nop` (R121). -/
def execNop (s : State) : Host.Outcome State Fault Refusal :=
  deliverL1 .nop 1 0 .nop s

/-- `ret` (R122). No return address is popped and no control transferred. -/
def execRet (s : State) : Host.Outcome State Fault Refusal :=
  deliverL1 .ret 9 0 .ret s

end Sys2Proof.Machine
end

