-- ==== Sys2Proof/Machine/Len10.lean ====
section
/-!
DEFINITION. The instructions of format L10: irmovq, rmmovq, mrmovq (spec/44_len10_irmovq_rmmovq_mrmovq.md). Each meaning is the format's common step at
the instruction's own opcode number, function code and mnemonic, in every operand form.
-/
namespace Sys2Proof.Machine

/-- `irmovq` (R181). `registerA` need not be 15. -/
def execIrmovq (regs : RegRead) (imm : ImmRead) (s : State) : Host.Outcome State Fault Refusal :=
  deliverL10 .irmovq 3 0 .irmovq regs imm s

/-- `rmmovq` (R182). No effective address is computed and nothing stored. -/
def execRmmovq (regs : RegRead) (imm : ImmRead) (s : State) : Host.Outcome State Fault Refusal :=
  deliverL10 .rmmovq 4 0 .rmmovq regs imm s

/-- `mrmovq` (R183). No effective address is computed and nothing loaded. -/
def execMrmovq (regs : RegRead) (imm : ImmRead) (s : State) : Host.Outcome State Fault Refusal :=
  deliverL10 .mrmovq 5 0 .mrmovq regs imm s

end Sys2Proof.Machine
end

