-- ==== Sys2Proof/Machine/Len2.lean ====
section
/-!
DEFINITION. The instructions of format L2: rrmovq and cmovXX, OPq, pushq, popq (spec/42_len2_rrmovq_opq_push_pop.md). Each meaning is the format's common step at
the instruction's own opcode number, function code and mnemonic, in every operand form.
-/
namespace Sys2Proof.Machine

/-- `rrmovq` (R130). -/
def execRrmovq (regs : RegRead) (s : State) : Host.Outcome State Fault Refusal :=
  deliverL2 .regMove 2 0 .rrmovq regs s

/-- `cmovle` (R131). No condition is evaluated. -/
def execCmovle (regs : RegRead) (s : State) : Host.Outcome State Fault Refusal :=
  deliverL2 .regMove 2 1 .cmovle regs s

/-- `cmovl` (R132). No condition is evaluated. -/
def execCmovl (regs : RegRead) (s : State) : Host.Outcome State Fault Refusal :=
  deliverL2 .regMove 2 2 .cmovl regs s

/-- `cmove` (R133). No condition is evaluated. -/
def execCmove (regs : RegRead) (s : State) : Host.Outcome State Fault Refusal :=
  deliverL2 .regMove 2 3 .cmove regs s

/-- `cmovne` (R134). No condition is evaluated. -/
def execCmovne (regs : RegRead) (s : State) : Host.Outcome State Fault Refusal :=
  deliverL2 .regMove 2 4 .cmovne regs s

/-- `cmovge` (R135). No condition is evaluated. -/
def execCmovge (regs : RegRead) (s : State) : Host.Outcome State Fault Refusal :=
  deliverL2 .regMove 2 5 .cmovge regs s

/-- `cmovg` (R136). No condition is evaluated. -/
def execCmovg (regs : RegRead) (s : State) : Host.Outcome State Fault Refusal :=
  deliverL2 .regMove 2 6 .cmovg regs s

/-- `addq` (R140). Nothing is computed and no condition code set. -/
def execAddq (regs : RegRead) (s : State) : Host.Outcome State Fault Refusal :=
  deliverL2 .opq 6 0 .addq regs s

/-- `subq` (R141). Nothing is computed and no condition code set. -/
def execSubq (regs : RegRead) (s : State) : Host.Outcome State Fault Refusal :=
  deliverL2 .opq 6 1 .subq regs s

/-- `andq` (R142). Nothing is computed and no condition code set. -/
def execAndq (regs : RegRead) (s : State) : Host.Outcome State Fault Refusal :=
  deliverL2 .opq 6 2 .andq regs s

/-- `xorq` (R143). Nothing is computed and no condition code set. -/
def execXorq (regs : RegRead) (s : State) : Host.Outcome State Fault Refusal :=
  deliverL2 .opq 6 3 .xorq regs s

/-- `mulq` (R144). Nothing is computed. -/
def execMulq (regs : RegRead) (s : State) : Host.Outcome State Fault Refusal :=
  deliverL2 .opq 6 4 .mulq regs s

/-- `divq` (R145). Nothing is computed. -/
def execDivq (regs : RegRead) (s : State) : Host.Outcome State Fault Refusal :=
  deliverL2 .opq 6 5 .divq regs s

/-- `modq` (R146). Nothing is computed. -/
def execModq (regs : RegRead) (s : State) : Host.Outcome State Fault Refusal :=
  deliverL2 .opq 6 6 .modq regs s

/-- `pushq` (R150). No stack is touched and `registerB` need not be 15. -/
def execPushq (regs : RegRead) (s : State) : Host.Outcome State Fault Refusal :=
  deliverL2 .pushq 10 0 .pushq regs s

/-- `popq` (R151). No stack is touched and `registerB` need not be 15. -/
def execPopq (regs : RegRead) (s : State) : Host.Outcome State Fault Refusal :=
  deliverL2 .popq 11 0 .popq regs s

end Sys2Proof.Machine
end

