-- ==== Sys2Proof/Machine/Len9.lean ====
section
/-!
DEFINITION. The instructions of format L9: jXX, call (spec/43_len9_jxx_call.md). Each meaning is the format's common step at
the instruction's own opcode number, function code and mnemonic, in every operand form.
-/
namespace Sys2Proof.Machine

/-- `jmp` (R160). The immediate is not followed. -/
def execJmp (imm : ImmRead) (s : State) : Host.Outcome State Fault Refusal :=
  deliverL9 .jxx 7 0 .jmp imm s

/-- `jle` (R161). No condition is evaluated. -/
def execJle (imm : ImmRead) (s : State) : Host.Outcome State Fault Refusal :=
  deliverL9 .jxx 7 1 .jle imm s

/-- `jl` (R162). No condition is evaluated. -/
def execJl (imm : ImmRead) (s : State) : Host.Outcome State Fault Refusal :=
  deliverL9 .jxx 7 2 .jl imm s

/-- `je` (R163). No condition is evaluated. -/
def execJe (imm : ImmRead) (s : State) : Host.Outcome State Fault Refusal :=
  deliverL9 .jxx 7 3 .je imm s

/-- `jne` (R164). No condition is evaluated. -/
def execJne (imm : ImmRead) (s : State) : Host.Outcome State Fault Refusal :=
  deliverL9 .jxx 7 4 .jne imm s

/-- `jge` (R165). No condition is evaluated. -/
def execJge (imm : ImmRead) (s : State) : Host.Outcome State Fault Refusal :=
  deliverL9 .jxx 7 5 .jge imm s

/-- `jg` (R166). No condition is evaluated. -/
def execJg (imm : ImmRead) (s : State) : Host.Outcome State Fault Refusal :=
  deliverL9 .jxx 7 6 .jg imm s

/-- `call` (R170). No return address is pushed; the immediate is not followed. -/
def execCall (imm : ImmRead) (s : State) : Host.Outcome State Fault Refusal :=
  deliverL9 .call 8 0 .call imm s

end Sys2Proof.Machine
end

