-- ==== Sys2Proof/Machine/Dispatch.lean ====
section
/-!
DEFINITION. One arm per instruction, in the order of spec/opcode_table.json.
-/
namespace Sys2Proof.Machine

def exec (i : Instr) (s : State) : Host.Outcome State Fault Refusal :=
  match i with
  | .halt => Sys2Proof.Machine.execHalt s
  | .nop => Sys2Proof.Machine.execNop s
  | .rrmovq regs => Sys2Proof.Machine.execRrmovq regs s
  | .cmovle regs => Sys2Proof.Machine.execCmovle regs s
  | .cmovl regs => Sys2Proof.Machine.execCmovl regs s
  | .cmove regs => Sys2Proof.Machine.execCmove regs s
  | .cmovne regs => Sys2Proof.Machine.execCmovne regs s
  | .cmovge regs => Sys2Proof.Machine.execCmovge regs s
  | .cmovg regs => Sys2Proof.Machine.execCmovg regs s
  | .irmovq regs imm => Sys2Proof.Machine.execIrmovq regs imm s
  | .rmmovq regs imm => Sys2Proof.Machine.execRmmovq regs imm s
  | .mrmovq regs imm => Sys2Proof.Machine.execMrmovq regs imm s
  | .addq regs => Sys2Proof.Machine.execAddq regs s
  | .subq regs => Sys2Proof.Machine.execSubq regs s
  | .andq regs => Sys2Proof.Machine.execAndq regs s
  | .xorq regs => Sys2Proof.Machine.execXorq regs s
  | .mulq regs => Sys2Proof.Machine.execMulq regs s
  | .divq regs => Sys2Proof.Machine.execDivq regs s
  | .modq regs => Sys2Proof.Machine.execModq regs s
  | .jmp imm => Sys2Proof.Machine.execJmp imm s
  | .jle imm => Sys2Proof.Machine.execJle imm s
  | .jl imm => Sys2Proof.Machine.execJl imm s
  | .je imm => Sys2Proof.Machine.execJe imm s
  | .jne imm => Sys2Proof.Machine.execJne imm s
  | .jge imm => Sys2Proof.Machine.execJge imm s
  | .jg imm => Sys2Proof.Machine.execJg imm s
  | .call imm => Sys2Proof.Machine.execCall imm s
  | .ret => Sys2Proof.Machine.execRet s
  | .pushq regs => Sys2Proof.Machine.execPushq regs s
  | .popq regs => Sys2Proof.Machine.execPopq regs s

end Sys2Proof.Machine
end

