-- ==== Sys2Proof/Machine/Step.lean ====
section
/-!
DEFINITION. One step request, answered with one outcome (spec/40_decode_step.md R95), and the placing of an
instruction where the next step reads.
-/
namespace Sys2Proof.Machine

/-- `DecodeStep` (40_decode_step.md R95): refused before the first Reset (70_reset_and_hazards.md R231); in a terminal
status the latched outcome again (R102); else what stands at the cursor, by the priority of 60_exceptions.md R205. -/
def step (s : State) : Host.Outcome State Fault Refusal :=
  match s.resetDone, s.latched? with
  | false, _ => .refused .stepBeforeReset
  | true, some t => .next (s.emit (.terminal t))
  | true, none =>
    match s.fetch with
    | .noHeader => .next (s.raise .endOfStream)
    | .badOpcode icode => .next ((s.consume 1).raise (.invalidOpcode icode s.pc))
    | .badFunction ifun => .next ((s.consume 1).raise (.invalidFunctionCode ifun s.pc))
    | .instr i _ => exec i s

/-- The state with an instruction word of spec/opcode_table.json placed at `pc` in the byte source and the cursor there,
accepting steps: what a `Reset` with that byte source and START = pc would leave, all else kept. Log 17. -/
def State.withFetchWord (s : State) (nbits w : Nat) : State :=
  { s with
    stream := s.stream.load s.pc.toNat (tableBytes nbits w)
    cur := s.pc
    status := .run
    resetDone := true }

end Sys2Proof.Machine
end

