-- ==== Sys2Proof/Machine/Caller.lean ====
section
/-!
DEFINITION. The two requests of the decoder's environment and how the decoder serves them (spec/60_exceptions.md R212;
spec/70_reset_and_hazards.md R230 to R234, R240).
-/
namespace Sys2Proof.Machine

/-- What the caller may request, one request at a time (70_reset_and_hazards.md R240). -/
inductive Request where
  /-- bind a byte source and a starting offset (0 when none is given) and begin a run -/
  | reset (stream : Memory) (start : Option Word)
  /-- one DecodeStep -/
  | decodeStep

/-- One request served: Reset from any state, always (R231, R232); a step as `step` answers it. -/
def serve (s : State) : Request → Host.Outcome State Fault Refusal
  | .reset stream start => .next (resetWith stream start)
  | .decodeStep => step s

end Sys2Proof.Machine
end

