-- ==== Sys2Proof/Machine/DecodeStep.lean ====
section
/-!
DEFINITION. The spec's own pseudo-code of one step, transcribed line by line over the 4-bit numbers, with StreamRead as
its only access to the byte source (spec/40_decode_step.md R80 to R86, R95; spec/20_memory.md R33). `step` does not use
it: it is the clear form that `step` (fetch, decode, one meaning per instruction) is claimed to equal.
-/
namespace Sys2Proof.Machine.Pseudo

open Sys2Proof.Machine

/-- `OpLegal(icode)` (40_decode_step.md R80). -/
def opLegal (icode : Nibble) : Bool := decide (icode.toNat ≤ 11)

/-- `FunLegal(icode, ifun)` (40_decode_step.md R84). -/
def funLegal (icode ifun : Nibble) : Bool :=
  if icode = 2 ∨ icode = 6 ∨ icode = 7 then decide (ifun.toNat ≤ 6) else decide (ifun = 0)

/-- `Len(icode)`, a table with the indices 0 to 11 (40_decode_step.md R81). -/
def len? (icode : Nibble) : Option Nat := [1, 1, 2, 10, 10, 10, 2, 9, 9, 1, 2, 2][icode.toNat]?

/-- `NeedRegs` of a declared length (40_decode_step.md R82). -/
def needRegs (len : Nat) : Bool := decide (len = 2 ∨ len = 10)

/-- `NeedImm` of a declared length (40_decode_step.md R82). -/
def needImm (len : Nat) : Bool := decide (len = 9 ∨ len = 10)

/-- `Mnemonic(icode, ifun)`, the table of 40_decode_step.md R83, one row per opcode. -/
def mnemonic? (icode ifun : Nibble) : Option Mnemonic :=
  ([[.halt], [.nop], [.rrmovq, .cmovle, .cmovl, .cmove, .cmovne, .cmovge, .cmovg], [.irmovq], [.rmmovq], [.mrmovq],
    [.addq, .subq, .andq, .xorq, .mulq, .divq, .modq], [.jmp, .jle, .jl, .je, .jne, .jge, .jg], [.call], [.ret],
    [.pushq], [.popq]] : List (List Mnemonic))[icode.toNat]?.bind fun row => row[ifun.toNat]?

/-- `ImmValue(k, m)` with k the length of m: the OR over j of `zext_64(m[j]) << (8*j)` (40_decode_step.md R90). -/
def immValue (m : List Byte) : Word :=
  (m.zipIdx.map fun bj => BitVec.setWidth 64 bj.1 <<< (8 * bj.2)).foldl (· ||| ·) 0

/-- Steps 4 to 9 of 40_decode_step.md R95, after a legal header; `s1` is the state after the header read. -/
def afterHeader (p : Word) (icode ifun : Nibble) (mn : Mnemonic) (len : Nat) (s1 : State) : State :=
  let needR := needRegs len
  let needI := needImm len
  -- 6. register byte
  let regRead := if needR then streamRead 1 s1 else (0, [], s1)
  let kr := regRead.1
  let regs : Option (Nibble × Nibble) := regRead.2.1.head?.map fun r => (highNibble r, lowNibble r)
  let s2 := regRead.2.2
  -- 7. immediate, attempted whether or not the register byte was obtained
  let immRead := if needI then streamRead 8 s2 else (0, [], s2)
  let ki := immRead.1
  let imm := immValue immRead.2.1
  let s3 := immRead.2.2
  let r : DecodedRecord :=
    { programCounter := p
      opcode := icode
      functionCode := ifun
      mnemonic := mn
      registersPresent := needR
      registersValid := regs.isSome
      registerA := regs.map Prod.fst
      registerB := regs.map Prod.snd
      immediateValuePresent := needI
      immediateValid := decide (1 ≤ ki)
      immediateValue := imm
      nextProgramCounter := p + BitVec.ofNat 64 len }
  -- 8. truncation check
  if (needR ∧ kr < 1) ∨ (needI ∧ ki < 8) then
    (s3.emit (.partialRecord r)).raise (.memoryAccessError p (BitVec.ofNat 4 len) (BitVec.ofNat 4 (1 + kr + ki)))
  -- 9. success
  else
    (s3.emit (.full r)).setPc (p + BitVec.ofNat 64 len)

/-- `DecodeStep()` (40_decode_step.md R95) from a state in which `Reset` has been performed. -/
def decodeStep (s : State) : State :=
  match s.latched? with
  | some t => s.emit (.terminal t)
  | none =>
    let p := s.pc
    -- 1. header byte
    let (_, header, s1) := streamRead 1 s
    match header with
    | [] => s1.raise .endOfStream
    | h :: _ =>
      let icode := highNibble h
      let ifun := lowNibble h
      -- 2. opcode legality
      if opLegal icode = false then s1.raise (.invalidOpcode icode p)
      -- 3. function-code legality
      else if funLegal icode ifun = false then s1.raise (.invalidFunctionCode ifun p)
      -- 4, 5. mnemonic and declared length: both tables have an entry once 2 and 3 have passed
      else
        match mnemonic? icode ifun, len? icode with
        | some mn, some len => afterHeader p icode ifun mn len s1
        | _, _ => s1

end Sys2Proof.Machine.Pseudo
end

