-- ==== Sys2Proof/Safety.lean ====
section
/-!
DEFINITION. What counts as a good state and a good run, in the spec's terms: a state that takes a step, the invariants
of states and records, and how a run ends (spec/10_state.md R15 to R17, R23; spec/40_decode_step.md R103;
spec/70_reset_and_hazards.md R239).
-/
namespace Sys2Proof.Machine

/-- The decoder accepts a step at an instruction boundary: Reset done, RUN, and the cursor at `pc` (10_state.md R16). -/
structure State.Ready (s : State) : Prop where
  resetDone : s.resetDone = true
  running : s.status = .run
  atPc : s.cur = s.pc

/-- `N - p`, the bytes available from the instruction's first byte to the end of the stream (40_decode_step.md R98). -/
def State.bytesLeft (s : State) : Nat := s.stream.size.val - s.pc.toNat

/-- Items 1, 2, 3, 4 and 6 of 10_state.md R23, which hold for every record, full or partial. -/
structure DecodedRecord.Sound (r : DecodedRecord) : Prop where
  /-- item 3, with the opcode named: legal opcode, legal function code, and the mnemonic of the two -/
  legal : ∃ o, Opcode.ofNibble r.opcode = some o ∧ o.mnemonic r.functionCode = some r.mnemonic
  /-- items 1 and 2: the present flags and the next program counter follow from the declared length -/
  fromLength : ∀ o, Opcode.ofNibble r.opcode = some o →
    r.registersPresent = o.needRegs ∧ r.immediateValuePresent = o.needImm ∧
    r.nextProgramCounter = r.programCounter + BitVec.ofNat 64 o.len
  /-- item 4 -/
  regsValid : r.registersValid = true → r.registersPresent = true
  immValid : r.immediateValid = true → r.immediateValuePresent = true
  /-- item 6 -/
  regsAbsent : r.registersValid = false → r.registerA = none ∧ r.registerB = none
  immZero : r.immediateValid = false → r.immediateValue = 0

/-- Item 5 of 10_state.md R23 for a full record. -/
def DecodedRecord.Full (r : DecodedRecord) : Prop :=
  r.registersValid = r.registersPresent ∧ r.immediateValid = r.immediateValuePresent

/-- A delivered record is sound, and complete when it is delivered as a full one. -/
def Event.Sound : Event → Prop
  | .full r => r.Sound ∧ r.Full
  | .partialRecord r => r.Sound
  | .terminal _ => True

/-- What each status says of `pc`, `cur` and the latches between steps (10_state.md R16, R17, R19; 60_exceptions.md
R206). -/
def State.StatusInv (s : State) : Prop :=
  match s.status with
  | .run => s.cur = s.pc
  | .ended => s.cur = s.pc ∧ s.stream.size.val ≤ s.pc.toNat
  | .errOpcode =>
    s.cur = s.pc + 1 ∧ s.errPc = s.pc ∧
    ∃ h, s.stream.byteAt? s.pc.toNat = some h ∧ s.errVal = highNibble h ∧ 12 ≤ s.errVal.toNat
  | .errFunction =>
    s.cur = s.pc + 1 ∧ s.errPc = s.pc ∧
    ∃ h o, s.stream.byteAt? s.pc.toNat = some h ∧ s.errVal = lowNibble h ∧
      Opcode.ofNibble (highNibble h) = some o ∧ o.mnemonic s.errVal = none
  | .errMemory =>
    s.errPc = s.pc ∧ s.cur = s.pc + BitVec.setWidth 64 s.errCnt ∧ s.cur.toNat = s.stream.size.val ∧
    1 ≤ s.errCnt.toNat ∧ s.errCnt.toNat < s.errLen.toNat ∧
    ∃ h o, s.stream.byteAt? s.pc.toNat = some h ∧ Opcode.ofNibble (highNibble h) = some o ∧ s.errLen.toNat = o.len

/-- The invariant of the machine: the byte source in canonical form, `pc`, `cur` and latches as the status says, and
every record delivered sound. -/
structure State.Inv (s : State) : Prop where
  streamWf : s.stream.wf = true
  byStatus : s.StatusInv
  delivered : ∀ e ∈ s.events, e.Sound

/-- Full records whose program counters chain from `start` to `stop` without a gap (40_decode_step.md R103: "Successive
records tile the stream"). -/
def Tiles : Word → List DecodedRecord → Word → Prop
  | start, [], stop => start = stop
  | start, r :: rest, stop => r.programCounter = start ∧ Tiles r.nextProgramCounter rest stop

/-- The run has ended (70_reset_and_hazards.md R239). -/
def State.RunOver (s : State) : Prop := s.status ≠ .run

/-- The run has ended normally (70_reset_and_hazards.md R239). -/
def State.EndedNormally (s : State) : Prop := s.status = .ended

end Sys2Proof.Machine
end

