-- ==== Sys2Proof/Certificates/Slice0/Obligations.lean ====
section
/-!
DEFINITION. The statements for the provers, from the spec's numbered rules.
-/
namespace Sys2Proof.Claims

open Sys2Proof Sys2Proof.Machine

/-! ## Records and errors written out as the rules write them -/

/-- The record of format L1 (41_len1_halt_nop_ret.md R120 to R122). -/
def recordL1 (p : Word) (icode : Nibble) (mn : Mnemonic) : DecodedRecord :=
  { programCounter := p, opcode := icode, functionCode := 0, mnemonic := mn
    registersPresent := false, registersValid := false, registerA := none, registerB := none
    immediateValuePresent := false, immediateValid := false, immediateValue := 0
    nextProgramCounter := p + 1 }

/-- The record of format L2 (42_len2_rrmovq_opq_push_pop.md R129): full with its specifiers, partial without. -/
def recordL2 (p : Word) (icode ifun : Nibble) (mn : Mnemonic) (regs : Option Specifiers) : DecodedRecord :=
  { programCounter := p, opcode := icode, functionCode := ifun, mnemonic := mn
    registersPresent := true, registersValid := regs.isSome
    registerA := regs.map (·.rA), registerB := regs.map (·.rB)
    immediateValuePresent := false, immediateValid := false, immediateValue := 0
    nextProgramCounter := p + 2 }

/-- The record of format L9 (43_len9_jxx_call.md R159) from the immediate bytes obtained. -/
def recordL9 (p : Word) (icode ifun : Nibble) (mn : Mnemonic) (m : List Byte) : DecodedRecord :=
  { programCounter := p, opcode := icode, functionCode := ifun, mnemonic := mn
    registersPresent := false, registersValid := false, registerA := none, registerB := none
    immediateValuePresent := true, immediateValid := decide (1 ≤ m.length), immediateValue := immValue m
    nextProgramCounter := p + 9 }

/-- The record of format L10 (44_len10_irmovq_rmmovq_mrmovq.md R180) from the specifiers and immediate bytes obtained. -/
def recordL10 (p : Word) (icode : Nibble) (mn : Mnemonic) (regs : Option Specifiers) (m : List Byte) : DecodedRecord :=
  { programCounter := p, opcode := icode, functionCode := 0, mnemonic := mn
    registersPresent := true, registersValid := regs.isSome
    registerA := regs.map (·.rA), registerB := regs.map (·.rB)
    immediateValuePresent := true, immediateValid := decide (1 ≤ m.length), immediateValue := immValue m
    nextProgramCounter := p + 10 }

/-- The state after a full record: `pc` and `cur` past the instruction, the record delivered, all else unchanged. -/
def afterRecord (s : State) (len : Nat) (r : DecodedRecord) : State :=
  { s with pc := s.pc + BitVec.ofNat 64 len, cur := s.pc + BitVec.ofNat 64 len, events := s.events ++ [.full r] }

/-- The state after a truncated instruction of which `a` bytes were there: the cursor at the end of the stream, the
latches of MemoryAccessError, the partial record and then the error delivered, all else unchanged (60_exceptions.md R206). -/
def afterTruncation (s : State) (len a : Nat) (r : DecodedRecord) : State :=
  { s with
    cur := BitVec.ofNat 64 s.stream.size.val
    status := .errMemory, errPc := s.pc, errLen := BitVec.ofNat 4 len, errCnt := BitVec.ofNat 4 a
    events := s.events ++
      [.partialRecord r, .terminal (.memoryAccessError s.pc (BitVec.ofNat 4 len) (BitVec.ofNat 4 a))] }

/-- The state after an illegal function code (60_exceptions.md R206). -/
def afterBadFunction (s : State) (ifun : Nibble) : State :=
  { s with
    cur := s.pc + 1, status := .errFunction, errPc := s.pc, errVal := ifun
    events := s.events ++ [.terminal (.invalidFunctionCode ifun s.pc)] }

/-- The state after an illegal opcode (60_exceptions.md R206). -/
def afterBadOpcode (s : State) (icode : Nibble) : State :=
  { s with
    cur := s.pc + 1, status := .errOpcode, errPc := s.pc, errVal := icode
    events := s.events ++ [.terminal (.invalidOpcode icode s.pc)] }

/-! ## What the decoder does at an instruction boundary whose header byte is `H` -/

/-- Header bytes of one opcode whose function code is at least `lo` raise InvalidFunctionCode, whatever follows. -/
def FunctionCodesIllegalFrom (icode : Nibble) (lo : Nat) : Prop :=
  ∀ (s : State) (h : Byte), s.Ready → s.stream.byteAt? s.pc.toNat = some h →
    highNibble h = icode → lo ≤ (lowNibble h).toNat → step s = .next (afterBadFunction s (lowNibble h))

/-- Format L1 at header byte `H`: the record, whatever follows. -/
def StepL1 (H : Byte) (icode : Nibble) (mn : Mnemonic) : Prop :=
  ∀ s : State, s.Ready → s.stream.byteAt? s.pc.toNat = some H →
    step s = .next (afterRecord s 1 (recordL1 s.pc icode mn))

/-- Format L2 at header byte `H`, by the number of bytes left (42_len2_rrmovq_opq_push_pop.md R129). -/
def StepL2 (H : Byte) (icode ifun : Nibble) (mn : Mnemonic) : Prop :=
  ∀ s : State, s.Ready → s.stream.byteAt? s.pc.toNat = some H →
    (∀ b, 2 ≤ s.bytesLeft → s.stream.byteAt? (s.pc.toNat + 1) = some b →
      step s = .next (afterRecord s 2 (recordL2 s.pc icode ifun mn (some { rA := highNibble b, rB := lowNibble b })))) ∧
    (s.bytesLeft = 1 → step s = .next (afterTruncation s 2 1 (recordL2 s.pc icode ifun mn none)))

/-- Format L9 at header byte `H`, by the number of bytes left (43_len9_jxx_call.md R159). -/
def StepL9 (H : Byte) (icode ifun : Nibble) (mn : Mnemonic) : Prop :=
  ∀ s : State, s.Ready → s.stream.byteAt? s.pc.toNat = some H →
    (9 ≤ s.bytesLeft →
      step s = .next (afterRecord s 9 (recordL9 s.pc icode ifun mn (s.stream.memRead (s.pc.toNat + 1) 8)))) ∧
    (1 ≤ s.bytesLeft → s.bytesLeft ≤ 8 →
      step s = .next (afterTruncation s 9 s.bytesLeft
        (recordL9 s.pc icode ifun mn (s.stream.memRead (s.pc.toNat + 1) (s.bytesLeft - 1)))))

/-- Format L10 at header byte `H`, by the number of bytes left (44_len10_irmovq_rmmovq_mrmovq.md R180). -/
def StepL10 (H : Byte) (icode : Nibble) (mn : Mnemonic) : Prop :=
  ∀ s : State, s.Ready → s.stream.byteAt? s.pc.toNat = some H →
    (∀ b, 10 ≤ s.bytesLeft → s.stream.byteAt? (s.pc.toNat + 1) = some b →
      step s = .next (afterRecord s 10 (recordL10 s.pc icode mn (some { rA := highNibble b, rB := lowNibble b })
        (s.stream.memRead (s.pc.toNat + 2) 8)))) ∧
    (∀ b, 2 ≤ s.bytesLeft → s.bytesLeft ≤ 9 → s.stream.byteAt? (s.pc.toNat + 1) = some b →
      step s = .next (afterTruncation s 10 s.bytesLeft
        (recordL10 s.pc icode mn (some { rA := highNibble b, rB := lowNibble b })
          (s.stream.memRead (s.pc.toNat + 2) (s.bytesLeft - 2))))) ∧
    (s.bytesLeft = 1 → step s = .next (afterTruncation s 10 1 (recordL10 s.pc icode mn none [])))

/-! ## Completion of exec on an instruction obtained in full -/

/-- `exec` of a complete L2 instruction, for all specifiers: the record, `pc` and `cur` past two bytes, all else
unchanged. -/
def CompletesL2 (ctor : RegRead → Instr) (icode ifun : Nibble) (mn : Mnemonic) : Prop :=
  ∀ (s : State) (rA rB : Nibble), s.status = .run →
    exec (ctor (some { rA := rA, rB := rB })) s =
      .next { s with
        pc := s.pc + 2, cur := s.cur + 2
        events := s.events ++ [.full (recordL2 s.pc icode ifun mn (some { rA := rA, rB := rB }))] }

/-- `exec` of a complete L9 instruction, for all eight immediate bytes. -/
def CompletesL9 (ctor : ImmRead → Instr) (icode ifun : Nibble) (mn : Mnemonic) : Prop :=
  ∀ (s : State) (m : List Byte), s.status = .run → m.length = 8 →
    exec (ctor m) s =
      .next { s with
        pc := s.pc + 9, cur := s.cur + 9
        events := s.events ++ [.full (recordL9 s.pc icode ifun mn m)] }

/-- `exec` of a complete L10 instruction, for all specifiers and all eight immediate bytes. -/
def CompletesL10 (ctor : RegRead → ImmRead → Instr) (icode : Nibble) (mn : Mnemonic) : Prop :=
  ∀ (s : State) (rA rB : Nibble) (m : List Byte), s.status = .run → m.length = 8 →
    exec (ctor (some { rA := rA, rB := rB }) m) s =
      .next { s with
        pc := s.pc + 10, cur := s.cur + 10
        events := s.events ++ [.full (recordL10 s.pc icode mn (some { rA := rA, rB := rB }) m)] }

/-- The grid of 30_encoding.md R63, by the header byte's number. -/
def headerGrid (h : Byte) : Classification :=
  match h.toNat with
  | 0x00 => .legal .halt 0 .halt
  | 0x10 => .legal .nop 0 .nop
  | 0x20 => .legal .regMove 0 .rrmovq
  | 0x21 => .legal .regMove 1 .cmovle
  | 0x22 => .legal .regMove 2 .cmovl
  | 0x23 => .legal .regMove 3 .cmove
  | 0x24 => .legal .regMove 4 .cmovne
  | 0x25 => .legal .regMove 5 .cmovge
  | 0x26 => .legal .regMove 6 .cmovg
  | 0x30 => .legal .irmovq 0 .irmovq
  | 0x40 => .legal .rmmovq 0 .rmmovq
  | 0x50 => .legal .mrmovq 0 .mrmovq
  | 0x60 => .legal .opq 0 .addq
  | 0x61 => .legal .opq 1 .subq
  | 0x62 => .legal .opq 2 .andq
  | 0x63 => .legal .opq 3 .xorq
  | 0x64 => .legal .opq 4 .mulq
  | 0x65 => .legal .opq 5 .divq
  | 0x66 => .legal .opq 6 .modq
  | 0x70 => .legal .jxx 0 .jmp
  | 0x71 => .legal .jxx 1 .jle
  | 0x72 => .legal .jxx 2 .jl
  | 0x73 => .legal .jxx 3 .je
  | 0x74 => .legal .jxx 4 .jne
  | 0x75 => .legal .jxx 5 .jge
  | 0x76 => .legal .jxx 6 .jg
  | 0x80 => .legal .call 0 .call
  | 0x90 => .legal .ret 0 .ret
  | 0xA0 => .legal .pushq 0 .pushq
  | 0xB0 => .legal .popq 0 .popq
  | n => if 0xC0 ≤ n then .badOpcode (BitVec.ofNat 4 (n / 16)) else .badFunction (BitVec.ofNat 4 (n % 16))

/-- A legal opcode with an illegal function code: 0 alone is legal but for opcodes 2, 6 and 7, which take 0 to 6
(60_exceptions.md R201). -/
def FunctionIllegal (h : Byte) : Prop :=
  (highNibble h).toNat ≤ 11 ∧
  (if highNibble h = 2 ∨ highNibble h = 6 ∨ highNibble h = 7 then 7 ≤ (lowNibble h).toNat else lowNibble h ≠ 0)

/-- The events of a terminal outcome, as one step delivers them (40_decode_step.md R94, R99). -/
def IsTerminalOutcome (d : List Event) : Prop :=
  d = [.terminal .endOfStream] ∨ (∃ v p, d = [.terminal (.invalidOpcode v p)]) ∨
    (∃ v p, d = [.terminal (.invalidFunctionCode v p)]) ∨
    ∃ r p l c, d = [.partialRecord r, .terminal (.memoryAccessError p l c)]

end Sys2Proof.Claims

open Sys2Proof Sys2Proof.Machine Sys2Proof.Claims

/-! ## Encoding -/

/-- Every instruction that the reads of a step can obtain decodes from its own bytes: a complete one with any bytes
after it, one cut short where the bytes end. Opcode numbers as in log 10. -/
def Obligations.DecodeOfEncodeReturnsInstruction : Prop :=
  ∀ (i : Instr) (rest : List Byte), i.WellFormed = true → (i.complete = true ∨ rest = []) →
    decode (encode i ++ rest) = .instr i rest

/-- Decoding drops no bit: the bytes of the decoded instruction, followed by the rest, are the bytes decoded. Opcode
numbers as in log 10. -/
def Obligations.EncodeOfDecodeReturnsBytes : Prop :=
  ∀ (bytes : List Byte) (i : Instr) (rest : List Byte), decode bytes = .instr i rest →
    i.WellFormed = true ∧ encode i ++ rest = bytes ∧ (i.complete = true ∨ rest = [])

/-- Words written out from the spec's encodings (30_encoding.md R52, R58 to R61; 95_test_vectors.md). Opcode
numbers as in log 10. -/
def Obligations.WordsOfTheSpecDecode : Prop :=
  decode [0x90] = .instr .ret [] ∧
  decode [0x26, 0xE0] = .instr (.cmovg (some { rA := 14, rB := 0 })) [] ∧
  decode [0x65, 0x8F] = .instr (.divq (some { rA := 8, rB := 15 })) [] ∧
  decode [0xB0, 0x3F, 0x10] = .instr (.popq (some { rA := 3, rB := 15 })) [0x10] ∧
  decode [0x73, 0x3F, 0, 0, 0, 0, 0, 0, 0] = .instr (.je [0x3F, 0, 0, 0, 0, 0, 0, 0]) [] ∧
  decode [0x80, 0x41] = .instr (.call [0x41]) [] ∧
  decode [0x30, 0xF6, 1, 0, 0, 0, 0, 0, 0, 0] = .instr (.irmovq (some { rA := 15, rB := 6 }) [1, 0, 0, 0, 0, 0, 0, 0]) [] ∧
  decode [0x40] = .instr (.rmmovq none []) [] ∧
  decode [0xC5, 0x10] = .badOpcode 12 ∧ decode [0x05] = .badFunction 5 ∧ decode [] = .noHeader

/-- The complete map of the 256 header bytes, and its census (30_encoding.md R63). The numbers of opcodes 8 to 11 are
presumed (R57; log 10). -/
def Obligations.ClassifierIsTheHeaderGrid : Prop :=
  (∀ h : Byte, classify h = headerGrid h) ∧
  ((List.range 256).countP fun n => match classify (BitVec.ofNat 8 n) with
    | .legal _ _ _ => true | .badOpcode _ => false | .badFunction _ => false) = 30 ∧
  ((List.range 256).countP fun n => match classify (BitVec.ofNat 8 n) with
    | .legal _ _ _ => false | .badOpcode _ => false | .badFunction _ => true) = 162 ∧
  ((List.range 256).countP fun n => match classify (BitVec.ofNat 8 n) with
    | .legal _ _ _ => false | .badOpcode _ => true | .badFunction _ => false) = 64

/-- The classifier is the spec's pseudo-code, opcode test first, over the tables of OpLegal, FunLegal, Mnemonic, Len,
NeedRegs and NeedImm (40_decode_step.md R80 to R85). Opcode numbers as in log 10. -/
def Obligations.ClassifierIsOpcodeThenFunctionTest : Prop :=
  ∀ h : Byte,
    (Pseudo.opLegal (highNibble h) = false → classify h = .badOpcode (highNibble h)) ∧
    (Pseudo.opLegal (highNibble h) = true → Pseudo.funLegal (highNibble h) (lowNibble h) = false →
      classify h = .badFunction (lowNibble h)) ∧
    (Pseudo.opLegal (highNibble h) = true → Pseudo.funLegal (highNibble h) (lowNibble h) = true →
      ∃ o mn len, classify h = .legal o (lowNibble h) mn ∧
        Pseudo.mnemonic? (highNibble h) (lowNibble h) = some mn ∧ Pseudo.len? (highNibble h) = some len ∧
        o.len = len ∧ o.needRegs = Pseudo.needRegs len ∧ o.needImm = Pseudo.needImm len)

/-- SplitRegs on every byte: quotient and remainder by 16 (40_decode_step.md R86; 00_scope.md R8). -/
def Obligations.SplitRegsTakesTheNibbles : Prop :=
  (∀ b : Byte, (splitRegs b).rA.toNat = b.toNat / 16 ∧ (splitRegs b).rB.toNat = b.toNat % 16) ∧
  splitRegs 0xF6 = { rA := 15, rB := 6 }

/-- The value of an immediate is the OR of its bytes at their places, which is their sum, the missing ones zero
(40_decode_step.md R90). -/
def Obligations.ImmediateIsLittleEndianWithZeroFill : Prop :=
  (∀ m : List Byte, m.length ≤ 8 →
    immValue m = Pseudo.immValue m ∧
    (immValue m).toNat = m.foldr (fun b higher => b.toNat + 2 ^ 8 * higher) 0 ∧
    (∀ j b, m[j]? = some b → (immValue m).extractLsb' (8 * j) 8 = b) ∧
    (∀ n, 8 * m.length ≤ n → (immValue m).getLsbD n = false)) ∧
  immValue [0x01, 0, 0, 0, 0, 0, 0, 0] = 1 ∧ immValue [0x3F, 0, 0, 0, 0, 0, 0, 0] = 0x3F

/-- The raw bytes of an immediate are recovered from its value, zero bytes standing for the missing ones, and the number
obtained from bytesRead (40_decode_step.md R92). -/
def Obligations.RawBytesRecoverTheImmediate : Prop :=
  (∀ m : List Byte, m.length ≤ 8 → rawBytes (immValue m) = m ++ List.replicate (8 - m.length) 0) ∧
  (∀ (regs : RegRead) (m : List Byte), bytesRead regs m - 1 - (if registersValid regs then 1 else 0) = m.length)

/-- The two marks of the immediate read (40_decode_step.md R91). -/
def Obligations.ImmediateMarksByByteCount : Prop :=
  ∀ m : List Byte, m.length ≤ 8 →
    (immediateValid m = true ↔ 1 ≤ m.length) ∧ (immediateSufficient m = true ↔ m.length = 8) ∧
    (m.length = 0 → immediateValid m = false ∧ immValue m = 0)

/-! ## The byte source -/

/-- StreamRead(n): the longest available prefix in ascending order, its count, the cursor moved past it and nothing else
changed; short only when the stream is exhausted; and an eight-byte read is eight one-byte reads (20_memory.md R33). -/
def Obligations.StreamReadDeliversLongestPrefix : Prop :=
  (∀ (s : State) (n : Nat),
    (streamRead n s).1 = min n (s.stream.size.val - s.cur.toNat) ∧
    (streamRead n s).2.1.length = (streamRead n s).1 ∧
    (∀ j, j < (streamRead n s).1 → (streamRead n s).2.1[j]? = s.stream.byteAt? (s.cur.toNat + j)) ∧
    (streamRead n s).2.2 = { s with cur := s.cur + BitVec.ofNat 64 (streamRead n s).1 } ∧
    ((streamRead n s).1 < n → s.stream.size.val ≤ (streamRead n s).2.2.cur.toNat ∧
      ((streamRead n s).1 ≠ 0 → (streamRead n s).2.2.cur.toNat = s.stream.size.val))) ∧
  (∀ s : State, (streamRead 8 s).2 = (fun p : List Byte × State =>
      (p.1 ++ (streamRead 1 p.2).2.1, (streamRead 1 p.2).2.2))^[8] ([], s))

/-- A byte is available iff its offset is below N, so availability is monotone (20_memory.md R31, "this spec's reading";
log 22). -/
def Obligations.AvailableIffBelowSize : Prop :=
  ∀ (m : Memory) (a b : Nat), ((m.byteAt? a).isSome = true ↔ a < m.size.val) ∧
    (m.byteAt? a = none → a ≤ b → m.byteAt? b = none)

/-- The canonical form is one: two byte sources in it with the same bytes are the same data. This is the model's own
representation (log 3). -/
def Obligations.CanonicalStreamsWithEqualBytesAreEqual : Prop :=
  ∀ m n : Memory, m.wf = true → n.wf = true → (∀ a, m.byteAt? a = n.byteAt? a) → m = n

/-! ## The step -/

/-- When the bytes at the cursor decode to an instruction, the step is exec of it. -/
def Obligations.StepRunsTheDecodedInstruction : Prop :=
  ∀ (s : State) (i : Instr) (rest : List Byte), s.resetDone = true → s.status = .run →
    decode (s.stream.readPrefix s.cur.toNat 10) = .instr i rest → step s = exec i s

/-- The step is the spec's DecodeStep, in every state after a Reset (40_decode_step.md R95), over tables that hold the
opcode numbers 4, 5 and 8 to 11, inferred or presumed by the spec (30_encoding.md R57; log 10). -/
def Obligations.StepIsDecodeStep : Prop :=
  ∀ s : State, s.resetDone = true → step s = .next (Pseudo.decodeStep s)

/-- An instruction placed by `withFetchWord` in a byte source of canonical form is what the next step runs. The model's own
operation (logs 3 and 17). -/
def Obligations.PlacedWordRunsNext : Prop :=
  ∀ (s : State) (nbits w : Nat) (i : Instr), s.stream.wf = true → s.pc.toNat + 10 < 2 ^ 64 → decodeTableWord nbits w = some i →
    step (s.withFetchWord nbits w) = exec i (s.withFetchWord nbits w)

/-- Exactly one of the five outcomes a step, with the status of its row (40_decode_step.md R94). -/
def Obligations.EveryStepHasOneOutcome : Prop :=
  ∀ s : State, s.resetDone = true → s.status = .run →
    ∃ t d, step s = .next t ∧ t.events = s.events ++ d ∧
      ((∃ r, d = [.full r] ∧ t.status = .run) ∨
       (d = [.terminal .endOfStream] ∧ t.status = .ended) ∨
       (∃ h, s.stream.byteAt? s.cur.toNat = some h ∧
          d = [.terminal (.invalidOpcode (highNibble h) s.pc)] ∧ t.status = .errOpcode) ∨
       (∃ h, s.stream.byteAt? s.cur.toNat = some h ∧
          d = [.terminal (.invalidFunctionCode (lowNibble h) s.pc)] ∧ t.status = .errFunction) ∨
       (∃ r l c, d = [.partialRecord r, .terminal (.memoryAccessError s.pc l c)] ∧ t.status = .errMemory))

/-- No step modifies the byte source (20_memory.md R36). Nor does one change the model's own bit that Reset has been
performed (log 6), or take back what the model's own list says was delivered (log 5). -/
def Obligations.NoStepWritesTheStream : Prop :=
  ∀ s t : State, step s = .next t →
    t.stream = s.stream ∧ (∀ a, t.stream.byteAt? a = s.stream.byteAt? a) ∧ t.resetDone = s.resetDone ∧
      ∃ d, t.events = s.events ++ d

/-- The next state and what is delivered depend on pc, cur, status, latches and STREAM, never on what was delivered
before (40_decode_step.md R104; 10_state.md R24). -/
def Obligations.OutcomeIndependentOfDeliveredEvents : Prop :=
  ∀ (s : State) (earlier : List Event), s.resetDone = true →
    ∃ t d, step s = .next t ∧ t.events = s.events ++ d ∧
      step { s with events := earlier } = .next { t with events := earlier ++ d }

/-- Legality depends on the header byte alone (60_exceptions.md R205, R214): two boundaries with the same header byte
end in the same structural error, with the same value, or both in none. -/
def Obligations.LegalityDependsOnHeaderByteAlone : Prop :=
  ∀ (s s' t t' : State) (h : Byte), s.Ready → s'.Ready →
    s.stream.byteAt? s.pc.toNat = some h → s'.stream.byteAt? s'.pc.toNat = some h →
    step s = .next t → step s' = .next t' →
    (t.status = .errOpcode ↔ t'.status = .errOpcode) ∧ (t.status = .errFunction ↔ t'.status = .errFunction) ∧
    (t.status = .errOpcode → t.errVal = t'.errVal) ∧ (t.status = .errFunction → t.errVal = t'.errVal) ∧
    t.status ≠ .ended

/-- `pc` is written only by Reset and by a Record, which adds the declared length of the opcode there, never the
immediate; `pc` then neither wraps nor passes N, and `cur` equals it (10_state.md R13; R15 and R16 as the spec derives
them). Opcode numbers as in log 10. -/
def Obligations.PcMovesOnlyByDeclaredLength : Prop :=
  (∀ (stream : Memory) (start : Option Word), (resetWith stream start).pc = start.getD 0) ∧
  (∀ s t : State, step s = .next t → t.pc ≠ s.pc →
    ∃ r, t.events = s.events ++ [.full r] ∧ r.programCounter = s.pc ∧ t.pc = r.nextProgramCounter) ∧
  (∀ s t : State, s.Ready → step s = .next t →
    (t.status ≠ .run → t.pc = s.pc) ∧
    (t.status = .run → ∃ h o, s.stream.byteAt? s.pc.toNat = some h ∧ Opcode.ofNibble (highNibble h) = some o ∧
      t.pc = s.pc + BitVec.ofNat 64 o.len ∧ t.pc.toNat = s.pc.toNat + o.len ∧ t.pc.toNat ≤ s.stream.size.val ∧
      t.cur = t.pc))

/-- The cursor moves forward by the bytes consumed, by outcome, and never back (20_memory.md R34; 10_state.md R16). -/
def Obligations.CursorAdvancesByBytesConsumed : Prop :=
  ∀ s t : State, s.resetDone = true → s.status = .run → step s = .next t →
    s.cur.toNat ≤ t.cur.toNat ∧
    (t.status = .ended → t.cur = s.cur) ∧
    (t.status = .errOpcode ∨ t.status = .errFunction → t.cur.toNat = s.cur.toNat + 1) ∧
    (t.status = .errMemory → t.cur.toNat = s.cur.toNat + t.errCnt.toNat ∧
      1 ≤ t.errCnt.toNat ∧ t.errCnt.toNat < t.errLen.toNat) ∧
    (t.status = .run → ∃ r, t.events = s.events ++ [.full r] ∧
      t.cur = s.cur + (r.nextProgramCounter - r.programCounter))

/-- Every record that a step delivers meets the record invariants (10_state.md R23, items 3 to 5 derived by the spec;
item 6's zero immediate is log 8). Opcode numbers as in log 10. -/
def Obligations.DeliveredRecordsAreSound : Prop :=
  ∀ (s t : State) (d : List Event), step s = .next t → t.events = s.events ++ d →
    (∀ e ∈ d, e.Sound) ∧
    (∀ r p l c, d = [.partialRecord r, .terminal (.memoryAccessError p l c)] →
      (r.registersPresent = true ∧ r.registersValid = false) ∨
      (r.immediateValuePresent = true ∧ c.toNat - 1 - (if r.registersValid then 1 else 0) < 8))

/-! ## The instructions, by what a step does at their header bytes -/

/-- halt and nop: encoding, record, illegal function codes (41_len1_halt_nop_ret.md R120, R121). halt does not stop the
decoder: the state after it takes the next step. -/
def Obligations.HaltNopSteps : Prop :=
  encode .halt = [0x00] ∧ encode .nop = [0x10] ∧
  StepL1 0x00 0 .halt ∧ StepL1 0x10 1 .nop ∧
  FunctionCodesIllegalFrom 0 1 ∧ FunctionCodesIllegalFrom 1 1 ∧
  (∀ (s : State) (h : Byte), s.Ready → s.stream.byteAt? s.pc.toNat = some h → h = 0x00 ∨ h = 0x10 →
    ∃ t, step s = .next t ∧ t.Ready ∧ t.pc = s.pc + 1)

/-- ret (41_len1_halt_nop_ret.md R122), under the opcode number 9, which the spec presumes (30_encoding.md R57; log 10). -/
def Obligations.RetSteps : Prop :=
  encode .ret = [0x90] ∧ StepL1 0x90 9 .ret ∧ FunctionCodesIllegalFrom 9 1

/-- The register-move class (42_len2_rrmovq_opq_push_pop.md R130 to R136 over R129). -/
def Obligations.RegisterMoveSteps : Prop :=
  StepL2 0x20 2 0 .rrmovq ∧ StepL2 0x21 2 1 .cmovle ∧ StepL2 0x22 2 2 .cmovl ∧ StepL2 0x23 2 3 .cmove ∧
  StepL2 0x24 2 4 .cmovne ∧ StepL2 0x25 2 5 .cmovge ∧ StepL2 0x26 2 6 .cmovg ∧ FunctionCodesIllegalFrom 2 7

/-- The arithmetic class (42_len2_rrmovq_opq_push_pop.md R140 to R146 over R129): nothing is computed. -/
def Obligations.ArithmeticSteps : Prop :=
  StepL2 0x60 6 0 .addq ∧ StepL2 0x61 6 1 .subq ∧ StepL2 0x62 6 2 .andq ∧ StepL2 0x63 6 3 .xorq ∧
  StepL2 0x64 6 4 .mulq ∧ StepL2 0x65 6 5 .divq ∧ StepL2 0x66 6 6 .modq ∧ FunctionCodesIllegalFrom 6 7

/-- pushq and popq (42_len2_rrmovq_opq_push_pop.md R150, R151 over R129), under the opcode numbers 10 and 11, which the
spec presumes (30_encoding.md R57; log 10). -/
def Obligations.PushPopSteps : Prop :=
  StepL2 0xA0 10 0 .pushq ∧ StepL2 0xB0 11 0 .popq ∧
  FunctionCodesIllegalFrom 10 1 ∧ FunctionCodesIllegalFrom 11 1

/-- The jump class (43_len9_jxx_call.md R160 to R166 over R159): no jump is followed. -/
def Obligations.JumpSteps : Prop :=
  StepL9 0x70 7 0 .jmp ∧ StepL9 0x71 7 1 .jle ∧ StepL9 0x72 7 2 .jl ∧ StepL9 0x73 7 3 .je ∧
  StepL9 0x74 7 4 .jne ∧ StepL9 0x75 7 5 .jge ∧ StepL9 0x76 7 6 .jg ∧ FunctionCodesIllegalFrom 7 7

/-- call (43_len9_jxx_call.md R170 over R159), under the opcode number 8, which the spec presumes (30_encoding.md R57;
log 10). -/
def Obligations.CallSteps : Prop :=
  StepL9 0x80 8 0 .call ∧ FunctionCodesIllegalFrom 8 1

/-- irmovq (44_len10_irmovq_rmmovq_mrmovq.md R181 over R180). -/
def Obligations.IrmovqSteps : Prop :=
  StepL10 0x30 3 .irmovq ∧ FunctionCodesIllegalFrom 3 1

/-- rmmovq and mrmovq (44_len10_irmovq_rmmovq_mrmovq.md R182, R183 over R180), under the opcode numbers 4 and 5, which the
spec derives (30_encoding.md R57). -/
def Obligations.RmmovqMrmovqSteps : Prop :=
  StepL10 0x40 4 .rmmovq ∧ StepL10 0x50 5 .mrmovq ∧ FunctionCodesIllegalFrom 4 1 ∧ FunctionCodesIllegalFrom 5 1

/-! ## The instructions, by exec -/

/-- exec completes on halt, nop and ret (opcode number 9: log 10). -/
def Obligations.ExecCompletesLengthOne : Prop :=
  ∀ s : State, s.status = .run →
    exec .halt s = .next { s with
      pc := s.pc + 1, cur := s.cur + 1, events := s.events ++ [.full (recordL1 s.pc 0 .halt)] } ∧
    exec .nop s = .next { s with
      pc := s.pc + 1, cur := s.cur + 1, events := s.events ++ [.full (recordL1 s.pc 1 .nop)] } ∧
    exec .ret s = .next { s with
      pc := s.pc + 1, cur := s.cur + 1, events := s.events ++ [.full (recordL1 s.pc 9 .ret)] }

/-- exec completes on rrmovq, cmovle, cmovl, cmove, cmovne, cmovge, cmovg, addq, subq, andq, xorq, mulq, divq, modq,
pushq and popq (opcode numbers 10, 11: log 10), for all specifiers. -/
def Obligations.ExecCompletesLengthTwo : Prop :=
  CompletesL2 .rrmovq 2 0 .rrmovq ∧ CompletesL2 .cmovle 2 1 .cmovle ∧ CompletesL2 .cmovl 2 2 .cmovl ∧
  CompletesL2 .cmove 2 3 .cmove ∧ CompletesL2 .cmovne 2 4 .cmovne ∧ CompletesL2 .cmovge 2 5 .cmovge ∧
  CompletesL2 .cmovg 2 6 .cmovg ∧
  CompletesL2 .addq 6 0 .addq ∧ CompletesL2 .subq 6 1 .subq ∧ CompletesL2 .andq 6 2 .andq ∧
  CompletesL2 .xorq 6 3 .xorq ∧ CompletesL2 .mulq 6 4 .mulq ∧ CompletesL2 .divq 6 5 .divq ∧
  CompletesL2 .modq 6 6 .modq ∧
  CompletesL2 .pushq 10 0 .pushq ∧ CompletesL2 .popq 11 0 .popq

/-- exec completes on jmp, jle, jl, je, jne, jge, jg and call (opcode number 8: log 10), for all immediates. -/
def Obligations.ExecCompletesLengthNine : Prop :=
  CompletesL9 .jmp 7 0 .jmp ∧ CompletesL9 .jle 7 1 .jle ∧ CompletesL9 .jl 7 2 .jl ∧ CompletesL9 .je 7 3 .je ∧
  CompletesL9 .jne 7 4 .jne ∧ CompletesL9 .jge 7 5 .jge ∧ CompletesL9 .jg 7 6 .jg ∧ CompletesL9 .call 8 0 .call

/-- exec completes on irmovq, rmmovq and mrmovq, for all specifiers and immediates. The opcode numbers 4 of rmmovq and 5
of mrmovq are the spec's inference from the order of a list (30_encoding.md R57; log 10). -/
def Obligations.ExecCompletesLengthTen : Prop :=
  CompletesL10 .irmovq 3 .irmovq ∧ CompletesL10 .rmmovq 4 .rmmovq ∧ CompletesL10 .mrmovq 5 .mrmovq

/-- What exec of any instruction leaves unchanged: the byte source, ERRVAL, and for an instruction obtained in full the
status and every latch, for one cut short `pc`. What it changes besides: `cur` by the bytes obtained, and one outcome
delivered. -/
def Obligations.ExecFrame : Prop :=
  ∀ (i : Instr) (s t : State), exec i s = .next t →
    t.stream = s.stream ∧ (∀ a, t.stream.byteAt? a = s.stream.byteAt? a) ∧ t.resetDone = s.resetDone ∧
    t.errVal = s.errVal ∧ t.cur = s.cur + BitVec.ofNat 64 (encode i).length ∧
    (i.complete = true → t.status = s.status ∧ t.errPc = s.errPc ∧ t.errLen = s.errLen ∧ t.errCnt = s.errCnt ∧
      ∃ r, t.events = s.events ++ [.full r]) ∧
    (i.WellFormed = true → i.complete = false → t.pc = s.pc ∧
      ∃ r l c, t.events = s.events ++ [.partialRecord r, .terminal (.memoryAccessError s.pc l c)])

/-- An instruction cut short raises MemoryAccessError after its partial record, with the declared length and the bytes
obtained (40_decode_step.md R97, R99). Opcode numbers as in log 10. -/
def Obligations.IncompleteInstructionRaisesMemoryAccessError : Prop :=
  ∀ (i : Instr) (s : State), s.status = .run → i.WellFormed = true → i.complete = false →
    ∃ o r, Opcode.ofNibble (highNibble i.mnemonic.header) = some o ∧ (encode i).length < o.len ∧
      r.programCounter = s.pc ∧ r.mnemonic = i.mnemonic ∧ r.nextProgramCounter = s.pc + BitVec.ofNat 64 o.len ∧
      exec i s = .next { s with
        cur := s.cur + BitVec.ofNat 64 (encode i).length
        status := .errMemory, errPc := s.pc
        errLen := BitVec.ofNat 4 o.len, errCnt := BitVec.ofNat 4 (encode i).length
        events := s.events ++ [.partialRecord r, .terminal (.memoryAccessError s.pc
          (BitVec.ofNat 4 o.len) (BitVec.ofNat 4 (encode i).length))] }

/-! ## Terminal outcomes -/

/-- End-of-stream: no header byte, so status END, nothing read, nothing latched; the empty stream at once
(60_exceptions.md R203). -/
def Obligations.EndOfStreamEntry : Prop :=
  (∀ s : State, s.Ready → s.stream.size.val ≤ s.pc.toNat →
    step s = .next { s with status := .ended, events := s.events ++ [.terminal .endOfStream] }) ∧
  Status.code .ended = 1 ∧
  (∀ stream : Memory, stream.size.val = 0 →
    step (resetWith stream none) =
      .next { resetWith stream none with status := .ended, events := [.terminal .endOfStream] })

/-- InvalidOpcode: opcode 12 to 15 whatever the function code and whatever follows (60_exceptions.md R200). -/
def Obligations.InvalidOpcodeEntry : Prop :=
  (∀ (s : State) (h : Byte), s.Ready → s.stream.byteAt? s.pc.toNat = some h → 12 ≤ (highNibble h).toNat →
    step s = .next (afterBadOpcode s (highNibble h))) ∧
  (∀ h : Byte, 12 ≤ (highNibble h).toNat ↔ 0xC0 ≤ h.toNat) ∧ Status.code .errOpcode = 2

/-- InvalidFunctionCode: legal opcode, illegal function code, whatever follows; 162 header bytes raise it
(60_exceptions.md R201). -/
def Obligations.InvalidFunctionCodeEntry : Prop :=
  (∀ (s : State) (h : Byte), s.Ready → s.stream.byteAt? s.pc.toNat = some h → FunctionIllegal h →
    step s = .next (afterBadFunction s (lowNibble h))) ∧
  (∀ h : Byte, classify h = .badFunction (lowNibble h) ↔ FunctionIllegal h) ∧
  ((List.range 256).countP fun n => match classify (BitVec.ofNat 8 n) with
    | .legal _ _ _ => false | .badOpcode _ => false | .badFunction _ => true) = 162 ∧
  Status.code .errFunction = 3

/-- The truncation table: by the declared length of the opcode at `pc` and the number of bytes left, either the full
record, or the partial record with what was obtained and then MemoryAccessError, which counts the bytes left
(40_decode_step.md R98, which the spec derives). Opcode numbers as in log 10. -/
def Obligations.OutcomeByBytesLeft : Prop :=
  ∀ (s : State) (h : Byte) (o : Opcode) (ifun : Nibble) (mn : Mnemonic), s.Ready →
    s.stream.byteAt? s.pc.toNat = some h → classify h = .legal o ifun mn →
    ∃ r : DecodedRecord,
      step s = .next (if s.bytesLeft < o.len then afterTruncation s o.len s.bytesLeft r else afterRecord s o.len r) ∧
      r.programCounter = s.pc ∧ r.opcode = highNibble h ∧ r.functionCode = ifun ∧ r.mnemonic = mn ∧
      r.nextProgramCounter = s.pc + BitVec.ofNat 64 o.len ∧
      r.registersPresent = o.needRegs ∧ r.immediateValuePresent = o.needImm ∧
      r.registersValid = (o.needRegs && decide (2 ≤ s.bytesLeft)) ∧
      r.registerA = (if r.registersValid then (s.stream.byteAt? (s.pc.toNat + 1)).map highNibble else none) ∧
      r.registerB = (if r.registersValid then (s.stream.byteAt? (s.pc.toNat + 1)).map lowNibble else none) ∧
      r.immediateValid = (o.needImm && decide ((if o.needRegs then 3 else 2) ≤ s.bytesLeft)) ∧
      r.immediateValue = (if o.needImm then
        immValue (s.stream.memRead (s.pc.toNat + (if o.needRegs then 2 else 1))
          (min 8 (s.bytesLeft - (if o.needRegs then 2 else 1)))) else 0)

/-- A step in a terminal status reads nothing, changes no state and delivers the latched outcome, for ERR_MEMORY without
the partial record (40_decode_step.md R102). `events` is what was delivered, no state of the decoder (log 5). -/
def Obligations.TerminalStatusRedelivers : Prop :=
  ∀ s : State, s.resetDone = true →
    (s.status = .ended → step s = .next { s with events := s.events ++ [.terminal .endOfStream] }) ∧
    (s.status = .errOpcode →
      step s = .next { s with events := s.events ++ [.terminal (.invalidOpcode s.errVal s.errPc)] }) ∧
    (s.status = .errFunction →
      step s = .next { s with events := s.events ++ [.terminal (.invalidFunctionCode s.errVal s.errPc)] }) ∧
    (s.status = .errMemory →
      step s = .next { s with events := s.events ++ [.terminal (.memoryAccessError s.errPc s.errLen s.errCnt)] })

/-- The outcome delivered again is the one that ended the run (40_decode_step.md R102; 10_state.md R19). -/
def Obligations.RedeliveredOutcomeEndedTheRun : Prop :=
  ∀ s t u : State, s.resetDone = true → s.status = .run → step s = .next t → t.RunOver → step t = .next u →
    ∃ d τ, t.events = s.events ++ d ∧ d.getLast? = some (.terminal τ) ∧
      u = { t with events := t.events ++ [.terminal τ] }

/-- However many steps are requested, a terminal status stays and nothing is read: each step delivers the latched outcome
alone, no record, full or partial, and every other field keeps its value; only Reset leaves it (60_exceptions.md R210). -/
def Obligations.TerminalStatusStays : Prop :=
  ∀ (k : Nat) (s : State), s.resetDone = true → s.RunOver →
    ∃ τ, s.latched? = some τ ∧
      Sys2Proof.core.run k s = .next { s with events := s.events ++ List.replicate k (.terminal τ) }

/-- The status register's codes; 5, 6 and 7 never occur (10_state.md R18). -/
def Obligations.StatusCodes : Prop :=
  Status.code .run = 0 ∧ Status.code .ended = 1 ∧ Status.code .errOpcode = 2 ∧ Status.code .errFunction = 3 ∧
  Status.code .errMemory = 4 ∧ (∀ a : Status, (Status.code a).toNat ≤ 4) ∧
  (∀ a b : Status, Status.code a = Status.code b → a = b)

/-! ## Reset and runs -/

/-- Reset sets pc and cur to START, 0 when there is none, and the status to RUN, whatever START and the stream are
(70_reset_and_hazards.md R230, R232). Nothing is said of the latches, which the rule leaves unspecified. -/
def Obligations.ResetBeginsARun : Prop :=
  ∀ (s : State) (stream : Memory) (start : Option Word),
    ∃ t, serve s (.reset stream start) = .next t ∧ t.pc = start.getD 0 ∧ t.cur = start.getD 0 ∧
      t.status = .run ∧ t.stream = stream ∧ t.Ready

/-- A step before the first Reset is refused; Reset is served from any state, with the same result; no step leaves a
terminal status (70_reset_and_hazards.md R231). -/
def Obligations.StepRefusedBeforeReset : Prop :=
  (∀ s : State, s.resetDone = false → serve s .decodeStep = .refused .stepBeforeReset) ∧
  (∀ (s s' : State) (stream : Memory) (start : Option Word),
    ∃ t, serve s (.reset stream start) = .next t ∧ serve s' (.reset stream start) = .next t ∧ t.status = .run) ∧
  (∀ s t : State, serve s .decodeStep = .next t → s.status ≠ .run → t.status = s.status)

/-- Reset establishes the invariant, on every byte source in canonical form and from every START; so does the model's
reset state. -/
def Obligations.ResetHasTheInvariant : Prop :=
  State.reset.Inv ∧ ∀ (stream : Memory) (start : Option Word), stream.wf = true → (resetWith stream start).Inv

/-- Every step keeps the invariant: the canonical byte source, `pc`, `cur` and latches as the status says (10_state.md
R16, R17; 60_exceptions.md R206), every record sound (10_state.md R23). Opcode numbers as in log 10. -/
def Obligations.StepKeepsTheInvariant : Prop :=
  ∀ s t : State, s.Inv → step s = .next t → t.Inv

/-- The run: records that tile the stream from START, then exactly one terminal outcome, within N - START record steps;
ending normally only at the end of the stream (40_decode_step.md R103, in good part derived by the spec; a program is
bound by Reset, log 2). -/
def Obligations.RunDeliversTilingRecordsThenOneTerminal : Prop :=
  ∀ (stream : Memory) (start : Option Word),
    ∃ (rs : List DecodedRecord) (last : List Event) (t : State),
      rs.length ≤ stream.size.val - (start.getD 0).toNat ∧
      (∀ j, j ≤ rs.length → ∃ u, Sys2Proof.core.run j (resetWith stream start) = .next u ∧ u.status = .run ∧
        u.events = (rs.take j).map .full) ∧
      Sys2Proof.core.run (rs.length + 1) (resetWith stream start) = .next t ∧ t.RunOver ∧
      t.events = rs.map .full ++ last ∧ IsTerminalOutcome last ∧ Tiles (start.getD 0) rs t.pc ∧
      (t.EndedNormally ↔ last = [.terminal .endOfStream]) ∧
      (t.EndedNormally → (rs ≠ [] ∧ t.pc.toNat = stream.size.val) ∨
        (rs = [] ∧ stream.size.val ≤ (start.getD 0).toNat)) ∧
      (stream.size.val ≤ (start.getD 0).toNat → rs = [] ∧ t.EndedNormally)
end

