-- ==== Sys2Proof/Laws/State.lean ====
section
/-!
SUPPORT. What each update of State leaves in each field.
-/
namespace Sys2Proof.Machine

section updates
variable (s : State) (e : Event) (n : Nat) (w : Word)

@[simp] theorem State.emit_pc : (s.emit e).pc = s.pc := rfl
@[simp] theorem State.emit_cur : (s.emit e).cur = s.cur := rfl
@[simp] theorem State.emit_status : (s.emit e).status = s.status := rfl
@[simp] theorem State.emit_errPc : (s.emit e).errPc = s.errPc := rfl
@[simp] theorem State.emit_errVal : (s.emit e).errVal = s.errVal := rfl
@[simp] theorem State.emit_errLen : (s.emit e).errLen = s.errLen := rfl
@[simp] theorem State.emit_errCnt : (s.emit e).errCnt = s.errCnt := rfl
@[simp] theorem State.emit_stream : (s.emit e).stream = s.stream := rfl
@[simp] theorem State.emit_resetDone : (s.emit e).resetDone = s.resetDone := rfl
@[simp] theorem State.emit_events : (s.emit e).events = s.events ++ [e] := rfl
@[simp] theorem State.emit_latched : (s.emit e).latched? = s.latched? := rfl

@[simp] theorem State.setPc_pc : (s.setPc w).pc = w := rfl
@[simp] theorem State.setPc_cur : (s.setPc w).cur = s.cur := rfl
@[simp] theorem State.setPc_status : (s.setPc w).status = s.status := rfl
@[simp] theorem State.setPc_errPc : (s.setPc w).errPc = s.errPc := rfl
@[simp] theorem State.setPc_errVal : (s.setPc w).errVal = s.errVal := rfl
@[simp] theorem State.setPc_errLen : (s.setPc w).errLen = s.errLen := rfl
@[simp] theorem State.setPc_errCnt : (s.setPc w).errCnt = s.errCnt := rfl
@[simp] theorem State.setPc_stream : (s.setPc w).stream = s.stream := rfl
@[simp] theorem State.setPc_resetDone : (s.setPc w).resetDone = s.resetDone := rfl
@[simp] theorem State.setPc_events : (s.setPc w).events = s.events := rfl

@[simp] theorem State.consume_pc : (s.consume n).pc = s.pc := rfl
@[simp] theorem State.consume_cur : (s.consume n).cur = s.cur + BitVec.ofNat 64 n := rfl
@[simp] theorem State.consume_status : (s.consume n).status = s.status := rfl
@[simp] theorem State.consume_errPc : (s.consume n).errPc = s.errPc := rfl
@[simp] theorem State.consume_errVal : (s.consume n).errVal = s.errVal := rfl
@[simp] theorem State.consume_errLen : (s.consume n).errLen = s.errLen := rfl
@[simp] theorem State.consume_errCnt : (s.consume n).errCnt = s.errCnt := rfl
@[simp] theorem State.consume_stream : (s.consume n).stream = s.stream := rfl
@[simp] theorem State.consume_resetDone : (s.consume n).resetDone = s.resetDone := rfl
@[simp] theorem State.consume_events : (s.consume n).events = s.events := rfl
@[simp] theorem State.consume_zero : s.consume 0 = s := by simp [State.consume]

end updates

section raise
variable (s : State) (t : Terminal)

@[simp] theorem State.raise_pc : (s.raise t).pc = s.pc := by cases t <;> rfl
@[simp] theorem State.raise_cur : (s.raise t).cur = s.cur := by cases t <;> rfl
@[simp] theorem State.raise_status : (s.raise t).status = t.status := by cases t <;> rfl
@[simp] theorem State.raise_stream : (s.raise t).stream = s.stream := by cases t <;> rfl
@[simp] theorem State.raise_resetDone : (s.raise t).resetDone = s.resetDone := by cases t <;> rfl
@[simp] theorem State.raise_events : (s.raise t).events = s.events ++ [.terminal t] := by cases t <;> rfl

/-- What is latched on entry is the outcome raised (60_exceptions.md R206). -/
@[simp] theorem State.raise_latched : (s.raise t).latched? = some t := by cases t <;> rfl

end raise

/-- Nothing is latched exactly while RUN. -/
theorem State.latched_none_iff (s : State) : s.latched? = none ↔ s.status = .run := by
  unfold State.latched?; cases s.status <;> simp

section reset
variable (m : Memory) (w : Option Word)

@[simp] theorem resetWith_pc : (resetWith m w).pc = w.getD 0 := rfl
@[simp] theorem resetWith_cur : (resetWith m w).cur = w.getD 0 := rfl
@[simp] theorem resetWith_status : (resetWith m w).status = .run := rfl
@[simp] theorem resetWith_stream : (resetWith m w).stream = m := rfl
@[simp] theorem resetWith_resetDone : (resetWith m w).resetDone = true := rfl
@[simp] theorem resetWith_events : (resetWith m w).events = [] := rfl

end reset

section withFetchWord
variable (s : State) (nbits w : Nat)

@[simp] theorem State.withFetchWord_pc : (s.withFetchWord nbits w).pc = s.pc := rfl
@[simp] theorem State.withFetchWord_cur : (s.withFetchWord nbits w).cur = s.pc := rfl
@[simp] theorem State.withFetchWord_status : (s.withFetchWord nbits w).status = .run := rfl
@[simp] theorem State.withFetchWord_resetDone : (s.withFetchWord nbits w).resetDone = true := rfl
@[simp] theorem State.withFetchWord_stream :
    (s.withFetchWord nbits w).stream = s.stream.load s.pc.toNat (tableBytes nbits w) := by
  simp only [State.withFetchWord]

end withFetchWord

/-- Fetching looks at the byte source and the cursor alone. -/
theorem State.fetch_congr {s t : State} (hm : t.stream = s.stream) (hc : t.cur = s.cur) : t.fetch = s.fetch := by
  unfold State.fetch State.fetchBytes; rw [hm, hc]

end Sys2Proof.Machine
end

