-- ==== Sys2Proof/Laws/Memory.lean ====
section
/-!
SUPPORT. The laws of the byte source: what a read obtains, read after write, and that every operation keeps the
canonical form.
-/
namespace Sys2Proof.Machine

/-! ## Reading -/

theorem Memory.byteAt_of_lt {m : Memory} {a : Nat} (h : a < m.size.val) : m.byteAt? a = some (lookup m.cells a) := by
  simp [Memory.byteAt?, h]

theorem Memory.byteAt_eq_some {m : Memory} {a : Nat} {b : Byte} :
    m.byteAt? a = some b ↔ a < m.size.val ∧ lookup m.cells a = b := by
  simp [Memory.byteAt?]

theorem Memory.byteAt_eq_none {m : Memory} {a : Nat} : m.byteAt? a = none ↔ m.size.val ≤ a := by
  simp [Memory.byteAt?]

@[simp] theorem Memory.memRead_length (m : Memory) (a n : Nat) : (m.memRead a n).length = n := by
  induction n generalizing a with
  | zero => rfl
  | succ n ih => simp [Memory.memRead, ih]

theorem Memory.memRead_getElem? (m : Memory) (a n j : Nat) (h : j < n) :
    (m.memRead a n)[j]? = some (lookup m.cells (a + j)) := by
  induction n generalizing a j with
  | zero => omega
  | succ n ih =>
    cases j with
    | zero => simp [Memory.memRead]
    | succ j => simp [Memory.memRead, ih (a + 1) j (by omega), Nat.add_comm, Nat.add_left_comm]

theorem Memory.memRead_add (m : Memory) (a k n : Nat) : m.memRead a (k + n) = m.memRead a k ++ m.memRead (a + k) n := by
  induction k generalizing a with
  | zero => simp [Memory.memRead]
  | succ k ih =>
    rw [show k + 1 + n = (k + n) + 1 by omega]
    simp [Memory.memRead, ih, Nat.add_assoc, Nat.add_comm 1 k]

theorem Memory.memRead_take (m : Memory) (a n k : Nat) : (m.memRead a n).take k = m.memRead a (min k n) := by
  induction n generalizing a k with
  | zero => simp [Memory.memRead]
  | succ n ih =>
    cases k with
    | zero => simp [Memory.memRead]
    | succ k => simp [Memory.memRead, ih, Nat.succ_min_succ]

theorem Memory.memRead_drop (m : Memory) (a n k : Nat) : (m.memRead a n).drop k = m.memRead (a + k) (n - k) := by
  induction k generalizing a n with
  | zero => simp
  | succ k ih =>
    cases n with
    | zero => simp [Memory.memRead]
    | succ n => simp [Memory.memRead, ih, Nat.add_assoc, Nat.add_comm 1 k]

@[simp] theorem Memory.readPrefix_length (m : Memory) (a n : Nat) :
    (m.readPrefix a n).length = min n (m.size.val - a) := by
  simp [Memory.readPrefix, Memory.available]

/-- A prefix read begins with the byte at its offset, or is empty where that byte is unavailable. -/
theorem Memory.readPrefix_succ (m : Memory) (a n : Nat) :
    m.readPrefix a (n + 1) = match m.byteAt? a with
      | none => []
      | some b => b :: m.readPrefix (a + 1) n := by
  unfold Memory.readPrefix Memory.available Memory.byteAt?
  split <;> rename_i h
  · by_cases ha : a < m.size.val
    · simp [ha] at h
    · rw [show m.size.val - a = 0 by omega]; simp [Memory.memRead]
  · by_cases ha : a < m.size.val
    · simp only [ha, ↓reduceIte, Option.some.injEq] at h
      rw [show min (n + 1) (m.size.val - a) = min n (m.size.val - (a + 1)) + 1 by omega]
      simp [Memory.memRead, h]
    · simp [ha] at h

/-! ## Writing -/

theorem lookup_writeCells (cells : List Host.Cell) (lo hi a c : Nat) (b : Byte) (h : cellsWf lo hi cells = true) :
    lookup (writeCells cells a b) c = if c = a then b else lookup cells c := by
  induction cells generalizing lo with
  | nil =>
    unfold writeCells
    split
    · rename_i hb
      split <;> simp [lookup, hb]
    · split
      · rename_i hc; simp [lookup, hc]
      · rename_i hc; simp [lookup, Ne.symm hc]
  | cons x rest ih =>
    obtain ⟨d, v⟩ := x
    simp only [cellsWf, Bool.and_eq_true, decide_eq_true_eq] at h
    obtain ⟨⟨⟨hlo, -⟩, -⟩, hrest⟩ := h
    have below : ∀ (l : List Host.Cell) (k e : Nat), cellsWf k hi l = true → e < k → lookup l e = Config.unlistedByte := by
      intro l
      induction l with
      | nil => intros; rfl
      | cons y l ihl =>
        intro k e hw he
        simp only [cellsWf, Bool.and_eq_true, decide_eq_true_eq] at hw
        have : y.1 ≠ e := by omega
        simp only [lookup, this, ↓reduceIte]
        exact ihl _ _ hw.2 (by omega)
    unfold writeCells
    split
    · rename_i had
      split
      · rename_i hb
        by_cases hc : c = a
        · subst hc
          have : d ≠ c := by omega
          simp [lookup, this, hb, below rest (d + 1) c hrest (by omega)]
        · simp [hc]
      · by_cases hc : c = a
        · simp [lookup, hc]
        · simp [lookup, hc, Ne.symm hc]
    · split
      · rename_i hnad had
        subst had
        split
        · rename_i hb
          by_cases hc : c = a
          · subst hc; simp [hb, below rest (c + 1) c hrest (by omega)]
          · simp [lookup, hc, Ne.symm hc]
        · by_cases hc : c = a
          · simp [lookup, hc]
          · simp [lookup, hc, Ne.symm hc]
      · rename_i hnad hne
        by_cases hdc : d = c
        · have : c ≠ a := by omega
          simp [lookup, hdc, this]
        · simp only [lookup, hdc, ↓reduceIte]
          exact ih _ hrest

theorem cellsWf_writeCells (cells : List Host.Cell) (lo hi a : Nat) (b : Byte) (h : cellsWf lo hi cells = true)
    (hlo : lo ≤ a) (hhi : a < hi) : cellsWf lo hi (writeCells cells a b) = true := by
  induction cells generalizing lo with
  | nil => by_cases hb : b = Config.unlistedByte <;> simp [writeCells, cellsWf, hb, hlo, hhi]
  | cons x rest ih =>
    obtain ⟨d, v⟩ := x
    simp only [cellsWf, Bool.and_eq_true, decide_eq_true_eq] at h
    obtain ⟨⟨⟨h1, h2⟩, h3⟩, hrest⟩ := h
    have weaken : ∀ (l : List Host.Cell) (k k' : Nat), cellsWf k hi l = true → k' ≤ k → cellsWf k' hi l = true := by
      intro l
      cases l with
      | nil => intros; rfl
      | cons y l =>
        intro k k' hw hk
        simp only [cellsWf, Bool.and_eq_true, decide_eq_true_eq] at hw ⊢
        exact ⟨⟨⟨by omega, hw.1.1.2⟩, hw.1.2⟩, hw.2⟩
    unfold writeCells
    split
    · split
      · simp [cellsWf, h1, h2, h3, hrest]
      · rename_i had hb
        simp [cellsWf, hlo, hhi, hb, had, h2, h3, hrest]
    · split
      · rename_i hnad had
        subst had
        split
        · exact weaken rest _ _ hrest (by omega)
        · rename_i hb
          simp [cellsWf, hlo, hhi, hb, hrest]
      · rename_i hnad hne
        simp [cellsWf, h1, h2, h3, ih (d + 1) hrest (by omega)]

@[simp] theorem Memory.write_size (m : Memory) (a : Nat) (b : Byte) : (m.write a b).size = m.size := by
  unfold Memory.write; split <;> rfl

/-- Writing keeps the canonical form. -/
theorem Memory.write_wf {m : Memory} (a : Nat) (b : Byte) (h : m.wf = true) : (m.write a b).wf = true := by
  unfold Memory.write Memory.wf
  split
  · exact cellsWf_writeCells _ _ _ _ _ h (by omega) ‹_›
  · exact h

/-- Read after write: the byte written at its own offset, the byte before everywhere else. -/
theorem Memory.byteAt_write {m : Memory} (a c : Nat) (b : Byte) (h : m.wf = true) (ha : a < m.size.val) :
    (m.write a b).byteAt? c = if c = a then some b else m.byteAt? c := by
  simp only [Memory.byteAt?, Memory.write_size]
  by_cases hc : c < m.size.val
  · simp only [hc, ↓reduceIte, Memory.write, ha]
    rw [lookup_writeCells _ _ _ _ _ _ h]
    split <;> rfl
  · have : c ≠ a := by omega
    simp [hc, this]

@[simp] theorem Memory.writeAll_size (m : Memory) (a : Nat) (bs : List Byte) : (m.writeAll a bs).size = m.size := by
  induction bs generalizing m a with
  | nil => rfl
  | cons b bs ih => simp [Memory.writeAll, ih]

theorem Memory.writeAll_wf {m : Memory} (a : Nat) (bs : List Byte) (h : m.wf = true) : (m.writeAll a bs).wf = true := by
  induction bs generalizing m a with
  | nil => exact h
  | cons b bs ih => exact ih (a + 1) (Memory.write_wf a b h)

theorem Memory.byteAt_writeAll {m : Memory} (a c : Nat) (bs : List Byte) (h : m.wf = true)
    (ha : a + bs.length ≤ m.size.val) :
    (m.writeAll a bs).byteAt? c = if a ≤ c ∧ c < a + bs.length then bs[c - a]? else m.byteAt? c := by
  induction bs generalizing m a with
  | nil => rw [Memory.writeAll, if_neg]; simp
  | cons b bs ih =>
    simp only [List.length_cons] at ha ⊢
    rw [Memory.writeAll, ih (a + 1) (Memory.write_wf a b h) (by simp; omega), Memory.byteAt_write a c b h (by omega)]
    by_cases h1 : c = a
    · subst h1; simp
    · by_cases h2 : a ≤ c ∧ c < a + (bs.length + 1)
      · have h3 : a + 1 ≤ c ∧ c < a + 1 + bs.length := by omega
        rw [if_pos h2, if_pos h3, show c - a = (c - (a + 1)) + 1 by omega, List.getElem?_cons_succ]
      · have h3 : ¬(a + 1 ≤ c ∧ c < a + 1 + bs.length) := by omega
        rw [if_neg h2, if_neg h3, if_neg h1]

/-- Lengthening keeps the canonical form. -/
theorem Memory.grow_wf {m : Memory} (n : Nat) (h : m.wf = true) : (m.grow n).wf = true := by
  have mono : ∀ (l : List Host.Cell) (lo hi hi' : Nat), cellsWf lo hi l = true → hi ≤ hi' → cellsWf lo hi' l = true := by
    intro l
    induction l with
    | nil => intros; rfl
    | cons y l ih =>
      intro lo hi hi' hw hh
      simp only [cellsWf, Bool.and_eq_true, decide_eq_true_eq] at hw ⊢
      exact ⟨⟨⟨hw.1.1.1, by omega⟩, hw.1.2⟩, ih _ _ _ hw.2 hh⟩
  exact mono _ _ _ _ h (by simp only [Memory.grow]; omega)

/-- Loading keeps the canonical form. -/
theorem Memory.load_wf {m : Memory} (a : Nat) (bs : List Byte) (h : m.wf = true) : (m.load a bs).wf = true :=
  Memory.writeAll_wf a bs (Memory.grow_wf _ h)

@[simp] theorem Memory.load_size (m : Memory) (a : Nat) (bs : List Byte) :
    (m.load a bs).size.val = max m.size.val (min (a + bs.length) (2 ^ 64 - 1)) := by
  simp [Memory.load, Memory.grow]

theorem Memory.byteAt_load {m : Memory} (a c : Nat) (bs : List Byte) (h : m.wf = true) (ha : a + bs.length < 2 ^ 64)
    (hc : a ≤ c) (hc' : c < a + bs.length) : (m.load a bs).byteAt? c = bs[c - a]? := by
  have hs : a + bs.length ≤ (m.grow (a + bs.length)).size.val := by simp only [Memory.grow]; omega
  rw [Memory.load, Memory.byteAt_writeAll a c bs (Memory.grow_wf _ h) hs, if_pos ⟨hc, hc'⟩]

/-- The byte source made of given bytes is in canonical form. -/
theorem Memory.ofBytes_wf (bs : List Byte) : (Memory.ofBytes bs).wf = true := Memory.load_wf 0 bs rfl

end Sys2Proof.Machine
end

