-- ==== Sys2Proof/Laws/Decode.lean ====
section
/-!
SUPPORT. The laws of the classifier, the splitter and the two operand reads.
-/
namespace Sys2Proof

/-- The opcode of a mnemonic. -/
def Mnemonic.opcode : Mnemonic → Opcode
  | .halt => .halt
  | .nop => .nop
  | .rrmovq | .cmovle | .cmovl | .cmove | .cmovne | .cmovge | .cmovg => .regMove
  | .irmovq => .irmovq
  | .rmmovq => .rmmovq
  | .mrmovq => .mrmovq
  | .addq | .subq | .andq | .xorq | .mulq | .divq | .modq => .opq
  | .jmp | .jle | .jl | .je | .jne | .jge | .jg => .jxx
  | .call => .call
  | .ret => .ret
  | .pushq => .pushq
  | .popq => .popq

theorem classify_header (mn : Mnemonic) : classify mn.header = .legal mn.opcode (lowNibble mn.header) mn := by
  cases mn <;> rfl

theorem legal_is_header : ∀ h : Byte, (match classify h with
    | .legal _ _ mn => decide (h = mn.header)
    | .badOpcode _ => true
    | .badFunction _ => true) = true := by
  decide

theorem ofNibble_eq_none : ∀ n : Nibble, Opcode.ofNibble n = none → 12 ≤ n.toNat := by
  decide

/-- The legal header bytes are the mnemonics', one to one. -/
theorem classify_eq_legal {h : Byte} {o : Opcode} {f : Nibble} {mn : Mnemonic} :
    classify h = .legal o f mn ↔ h = mn.header ∧ o = mn.opcode ∧ f = lowNibble mn.header := by
  constructor
  · intro hc
    have hh := legal_is_header h
    rw [hc] at hh
    simp only [decide_eq_true_eq] at hh
    rw [hh, classify_header] at hc
    simp only [Classification.legal.injEq, and_true] at hc
    exact ⟨hh, hc.1.symm, hc.2.symm⟩
  · rintro ⟨rfl, rfl, rfl⟩
    exact classify_header mn

theorem classify_badOpcode {h : Byte} {v : Nibble} (hc : classify h = .badOpcode v) :
    v = highNibble h ∧ 12 ≤ (highNibble h).toNat := by
  unfold classify at hc
  split at hc
  · rename_i ho
    exact ⟨(Classification.badOpcode.inj hc).symm, ofNibble_eq_none _ ho⟩
  · split at hc <;> simp at hc

theorem classify_badFunction {h : Byte} {v : Nibble} (hc : classify h = .badFunction v) :
    v = lowNibble h ∧ ∃ o, Opcode.ofNibble (highNibble h) = some o ∧ o.mnemonic (lowNibble h) = none := by
  unfold classify at hc
  split at hc
  · simp at hc
  · rename_i o ho
    split at hc
    · rename_i hm
      exact ⟨(Classification.badFunction.inj hc).symm, o, ho, hm⟩
    · simp at hc

theorem ofNibble_header (mn : Mnemonic) : Opcode.ofNibble (highNibble mn.header) = some mn.opcode := by
  cases mn <;> rfl

theorem mnemonic_header (mn : Mnemonic) : mn.opcode.mnemonic (lowNibble mn.header) = some mn := by
  cases mn <;> rfl

/-- The declared length is the header byte, the register byte if there is one, and the immediate if there is one
(40_decode_step.md R82). -/
theorem Opcode.len_eq (o : Opcode) :
    o.len = 1 + (if o.needRegs then 1 else 0) + (if o.needImm then 8 else 0) := by cases o <;> rfl

theorem Opcode.len_le (o : Opcode) : o.len ≤ 10 := by cases o <;> decide

theorem splitRegs_join : ∀ rA rB : Nibble, splitRegs (joinNibbles rA rB) = { rA := rA, rB := rB } := by decide

theorem join_splitRegs : ∀ b : Byte, joinNibbles (splitRegs b).rA (splitRegs b).rB = b := by decide

@[simp] theorem takeRegs_false (bs : List Byte) : takeRegs false bs = (none, bs) := by cases bs <;> rfl

@[simp] theorem takeImm_false (bs : List Byte) : takeImm false bs = ([], bs) := rfl

theorem takeImm_true (bs : List Byte) : takeImm true bs = (bs.take 8, bs.drop 8) := rfl

/-- What decoding a header byte and what follows answers, by its classification. -/
theorem decode_cons (h : Byte) (t : List Byte) : decode (h :: t) = match classify h with
    | .badOpcode icode => .badOpcode icode
    | .badFunction ifun => .badFunction ifun
    | .legal o _ mn => .instr (mn.toInstr (takeRegs o.needRegs t).1 (takeImm o.needImm (takeRegs o.needRegs t).2).1)
        (takeImm o.needImm (takeRegs o.needRegs t).2).2 := rfl

@[simp] theorem Mnemonic.toInstr_mnemonic (mn : Mnemonic) (r : RegRead) (m : ImmRead) :
    (mn.toInstr r m).mnemonic = mn := by cases mn <;> rfl

/-- An instruction is its mnemonic with its operands. -/
@[simp] theorem Instr.toInstr_eta (i : Instr) : i.mnemonic.toInstr i.regs i.imm = i := by cases i <;> rfl

theorem Mnemonic.toInstr_regs (mn : Mnemonic) (r : RegRead) (m : ImmRead) :
    (mn.toInstr r m).regs = if mn.opcode.needRegs then r else none := by cases mn <;> rfl

theorem Mnemonic.toInstr_imm (mn : Mnemonic) (r : RegRead) (m : ImmRead) :
    (mn.toInstr r m).imm = if mn.opcode.needImm then m else [] := by cases mn <;> rfl

end Sys2Proof
end

