-- ==== Sys2Proof/Laws/PerInstr.lean ====
section
/-!
SUPPORT. Families of lemmas with one lemma per constructor of Instr.
-/
namespace Sys2Proof.Laws.EncodedLength

open Sys2Proof

/-- A well-formed instruction's bytes are at most its declared length, and exactly that when it is complete. -/
def Statement (i : Instr) : Prop :=
  i.WellFormed = true → (encode i).length ≤ i.mnemonic.opcode.len ∧
    (i.complete = true ↔ (encode i).length = i.mnemonic.opcode.len)

theorem ofNone (i : Instr) (hr : i.regs = none) (hm : i.imm = []) (hc : i.complete = true)
    (hl : i.mnemonic.opcode.len = 1) : Statement i := by
  intro _; simp [encode, hr, hm, hc, hl, encodeRegs]

theorem ofRegs (i : Instr) (hm : i.imm = []) (hc : i.complete = i.regs.isSome)
    (hl : i.mnemonic.opcode.len = 2) : Statement i := by
  intro _; cases h : i.regs <;> simp [encode, h, hm, hc, hl, encodeRegs]

theorem ofImm (i : Instr) (hr : i.regs = none) (hw : i.WellFormed = immFits i.imm)
    (hc : i.complete = decide (i.imm.length = 8)) (hl : i.mnemonic.opcode.len = 9) : Statement i := by
  intro h
  rw [hw, immFits, decide_eq_true_eq, Config.immBytes] at h
  simp only [encode, hr, hc, hl, encodeRegs, List.nil_append, List.length_cons, decide_eq_true_eq]
  omega

theorem ofBoth (i : Instr) (hw : i.WellFormed = (immFits i.imm && immNeedsRegs i.regs i.imm))
    (hc : i.complete = (i.regs.isSome && decide (i.imm.length = 8))) (hl : i.mnemonic.opcode.len = 10) :
    Statement i := by
  intro h
  rw [hw, immFits, immNeedsRegs, Config.immBytes] at h
  cases hr : i.regs with
  | none => simp_all [encode, encodeRegs]
  | some r =>
    simp only [hr, Option.isSome_some, Bool.true_or, Bool.and_true, decide_eq_true_eq] at h
    simp only [encode, hr, hc, hl, encodeRegs, List.singleton_append, List.length_cons, Option.isSome_some, Bool.true_and,
      decide_eq_true_eq]
    omega

theorem halt : Statement .halt := ofNone _ rfl rfl rfl rfl
theorem nop : Statement .nop := ofNone _ rfl rfl rfl rfl
theorem rrmovq (r : RegRead) : Statement (.rrmovq r) := ofRegs _ rfl rfl rfl
theorem cmovle (r : RegRead) : Statement (.cmovle r) := ofRegs _ rfl rfl rfl
theorem cmovl (r : RegRead) : Statement (.cmovl r) := ofRegs _ rfl rfl rfl
theorem cmove (r : RegRead) : Statement (.cmove r) := ofRegs _ rfl rfl rfl
theorem cmovne (r : RegRead) : Statement (.cmovne r) := ofRegs _ rfl rfl rfl
theorem cmovge (r : RegRead) : Statement (.cmovge r) := ofRegs _ rfl rfl rfl
theorem cmovg (r : RegRead) : Statement (.cmovg r) := ofRegs _ rfl rfl rfl
theorem irmovq (r : RegRead) (m : ImmRead) : Statement (.irmovq r m) := ofBoth _ rfl rfl rfl
theorem rmmovq (r : RegRead) (m : ImmRead) : Statement (.rmmovq r m) := ofBoth _ rfl rfl rfl
theorem mrmovq (r : RegRead) (m : ImmRead) : Statement (.mrmovq r m) := ofBoth _ rfl rfl rfl
theorem addq (r : RegRead) : Statement (.addq r) := ofRegs _ rfl rfl rfl
theorem subq (r : RegRead) : Statement (.subq r) := ofRegs _ rfl rfl rfl
theorem andq (r : RegRead) : Statement (.andq r) := ofRegs _ rfl rfl rfl
theorem xorq (r : RegRead) : Statement (.xorq r) := ofRegs _ rfl rfl rfl
theorem mulq (r : RegRead) : Statement (.mulq r) := ofRegs _ rfl rfl rfl
theorem divq (r : RegRead) : Statement (.divq r) := ofRegs _ rfl rfl rfl
theorem modq (r : RegRead) : Statement (.modq r) := ofRegs _ rfl rfl rfl
theorem jmp (m : ImmRead) : Statement (.jmp m) := ofImm _ rfl rfl rfl rfl
theorem jle (m : ImmRead) : Statement (.jle m) := ofImm _ rfl rfl rfl rfl
theorem jl (m : ImmRead) : Statement (.jl m) := ofImm _ rfl rfl rfl rfl
theorem je (m : ImmRead) : Statement (.je m) := ofImm _ rfl rfl rfl rfl
theorem jne (m : ImmRead) : Statement (.jne m) := ofImm _ rfl rfl rfl rfl
theorem jge (m : ImmRead) : Statement (.jge m) := ofImm _ rfl rfl rfl rfl
theorem jg (m : ImmRead) : Statement (.jg m) := ofImm _ rfl rfl rfl rfl
theorem call (m : ImmRead) : Statement (.call m) := ofImm _ rfl rfl rfl rfl
theorem ret : Statement .ret := ofNone _ rfl rfl rfl rfl
theorem pushq (r : RegRead) : Statement (.pushq r) := ofRegs _ rfl rfl rfl
theorem popq (r : RegRead) : Statement (.popq r) := ofRegs _ rfl rfl rfl

end Sys2Proof.Laws.EncodedLength
end

