-- ==== Sys2Proof/Laws/Instruction.lean ====
section
/-!
SUPPORT. What the shared step of an instruction can do, that every instruction's meaning is that step at its own
mnemonic, and what a step reads at an instruction boundary.
-/
namespace Sys2Proof.Machine

/-- Every meaning is the shared step at the instruction's opcode number, function code and mnemonic. -/
theorem exec_eq_deliver (i : Instr) (s : State) :
    exec i s = deliver i.mnemonic.opcode (highNibble i.mnemonic.header) (lowNibble i.mnemonic.header) i.mnemonic
      i.regs i.imm s := by
  cases i <;> simp only [Instr.mnemonic, Instr.regs, Instr.imm] <;> rfl

/-- A full record: `pc` at the record's next program counter, `cur` past the bytes read, the record delivered. -/
theorem deliver_of_sufficient {o : Opcode} {icode ifun : Nibble} {mn : Mnemonic} {regs : RegRead} {imm : ImmRead}
    (s : State) (h : truncated o regs imm = false) :
    deliver o icode ifun mn regs imm s = .next { s with
      pc := s.pc + BitVec.ofNat 64 o.len
      cur := s.cur + BitVec.ofNat 64 (bytesRead regs imm)
      events := s.events ++ [.full (buildRecord s.pc o icode ifun mn regs imm)] } := by
  unfold deliver; simp only [h]; rfl

/-- A truncated instruction: `pc` kept, MemoryAccessError latched, the partial record and then the error delivered. -/
theorem deliver_of_truncated {o : Opcode} {icode ifun : Nibble} {mn : Mnemonic} {regs : RegRead} {imm : ImmRead}
    (s : State) (h : truncated o regs imm = true) :
    deliver o icode ifun mn regs imm s = .next { s with
      cur := s.cur + BitVec.ofNat 64 (bytesRead regs imm)
      status := .errMemory, errPc := s.pc
      errLen := BitVec.ofNat 4 o.len, errCnt := BitVec.ofNat 4 (bytesRead regs imm)
      events := s.events ++ [.partialRecord (buildRecord s.pc o icode ifun mn regs imm),
        .terminal (.memoryAccessError s.pc (BitVec.ofNat 4 o.len) (BitVec.ofNat 4 (bytesRead regs imm)))] } := by
  unfold deliver; simp only [h, ↓reduceIte]
  simp [State.raise, State.emit, State.consume]

/-- A well-formed instruction is truncated exactly when it is not complete. -/
theorem truncated_eq_not_complete (i : Instr) (h : i.WellFormed = true) :
    truncated i.mnemonic.opcode i.regs i.imm = !i.complete := by
  cases i <;> simp [truncated, Opcode.needRegs, Opcode.needImm, Mnemonic.opcode, Instr.mnemonic, Opcode.len,
    registersValid, immediateSufficient, Instr.regs, Instr.imm, Instr.complete] <;> rfl

/-- The bytes read of an instruction are the bytes it is encoded in. -/
theorem bytesRead_eq_length (i : Instr) : bytesRead i.regs i.imm = (encode i).length := by
  cases h : i.regs <;> simp [bytesRead, registersValid, encode, encodeRegs, h] <;> omega

/-- At a boundary whose header byte is `h`, the bytes at the cursor are it and up to nine more. -/
theorem State.fetchBytes_of_header {s : State} {h : Byte} (hh : s.stream.byteAt? s.cur.toNat = some h) :
    s.fetchBytes = h :: s.stream.readPrefix (s.cur.toNat + 1) 9 := by
  unfold State.fetchBytes Config.maxLen
  rw [Memory.readPrefix_succ, hh]

/-- Where no header byte is available, there are no bytes at the cursor. -/
theorem State.fetchBytes_of_none {s : State} (hh : s.stream.byteAt? s.cur.toNat = none) : s.fetchBytes = [] := by
  unfold State.fetchBytes Config.maxLen
  rw [Memory.readPrefix_succ, hh]

/-- Before the first Reset a step is refused. -/
theorem step_of_noReset {s : State} (hd : s.resetDone = false) : step s = .refused .stepBeforeReset := by
  unfold step; rw [hd]

/-- In a terminal status the step delivers what is latched. -/
theorem step_of_latched {s : State} {t : Terminal} (hd : s.resetDone = true) (hl : s.latched? = some t) :
    step s = .next (s.emit (.terminal t)) := by
  unfold step; rw [hd, hl]

/-- While RUN the step is what stands at the cursor. -/
theorem step_of_run {s : State} (hd : s.resetDone = true) (hr : s.status = .run) :
    step s = match s.fetch with
      | .noHeader => .next (s.raise .endOfStream)
      | .badOpcode icode => .next ((s.consume 1).raise (.invalidOpcode icode s.pc))
      | .badFunction ifun => .next ((s.consume 1).raise (.invalidFunctionCode ifun s.pc))
      | .instr i _ => exec i s := by
  have hl := (State.latched_none_iff s).2 hr
  cases hf : s.fetch <;> simp only [step, hd, hl, hf]

end Sys2Proof.Machine
end

