-- ==== Sys2Proof/Laws/Step.lean ====
section
/-!
SUPPORT. Everything a step can do, said once (`step_total`, `step_cases`), in terms of what its reads obtain at the cursor.
-/
namespace Sys2Proof.Machine

/-! ## Operand reads on the bytes at the cursor -/

theorem Memory.readPrefix_take (m : Memory) (a n k : Nat) (h : k ≤ n) :
    (m.readPrefix a n).take k = m.readPrefix a k := by
  simp only [Memory.readPrefix, Memory.available, Memory.memRead_take]
  congr 1; omega

theorem Memory.readPrefix_eq_nil {m : Memory} {a : Nat} (n : Nat) (h : m.byteAt? a = none) : m.readPrefix a n = [] := by
  rw [Memory.byteAt_eq_none] at h
  simp [Memory.readPrefix, Memory.available, show m.size.val - a = 0 by omega, Memory.memRead]

theorem takeRegs_readPrefix (m : Memory) (a n : Nat) : takeRegs true (m.readPrefix a (n + 1)) =
    match m.byteAt? a with
    | none => (none, [])
    | some b => (some (splitRegs b), m.readPrefix (a + 1) n) := by
  rw [Memory.readPrefix_succ]
  cases m.byteAt? a <;> rfl

/-- What the register-byte read of an instruction with this opcode obtains, its header byte being at the cursor. -/
def State.regsAt (s : State) (o : Opcode) : RegRead :=
  if o.needRegs then (s.stream.byteAt? (s.cur.toNat + 1)).map splitRegs else none

/-- What the immediate read of an instruction with this opcode obtains. -/
def State.immAt (s : State) (o : Opcode) : ImmRead :=
  if o.needImm then s.stream.readPrefix (s.cur.toNat + 1 + (if o.needRegs then 1 else 0)) 8 else []

/-- The bytes read are the declared length or what the stream still holds. -/
theorem State.bytesRead_at {s : State} {h : Byte} (o : Opcode) (hh : s.stream.byteAt? s.cur.toNat = some h) :
    bytesRead (s.regsAt o) (s.immAt o) = min o.len (s.stream.size.val - s.cur.toNat) := by
  have hlt := (Memory.byteAt_eq_some.1 hh).1
  rw [Opcode.len_eq]
  unfold bytesRead State.regsAt State.immAt registersValid
  by_cases hb : s.cur.toNat + 1 < s.stream.size.val
  · have hs := Memory.byteAt_of_lt hb
    cases o.needRegs <;> cases o.needImm <;> simp [hs] <;> omega
  · have hs := Memory.byteAt_eq_none.2 (Nat.le_of_not_lt hb)
    cases o.needRegs <;> cases o.needImm <;> simp [hs] <;> omega

/-- Truncated means fewer bytes left than the declared length. -/
theorem State.truncated_at {s : State} {h : Byte} (o : Opcode) (hh : s.stream.byteAt? s.cur.toNat = some h) :
    truncated o (s.regsAt o) (s.immAt o) = decide (s.stream.size.val - s.cur.toNat < o.len) := by
  have hlt := (Memory.byteAt_eq_some.1 hh).1
  rw [Opcode.len_eq, Bool.eq_iff_iff]
  unfold truncated State.regsAt State.immAt registersValid immediateSufficient Config.immBytes
  by_cases hb : s.cur.toNat + 1 < s.stream.size.val
  · have hs := Memory.byteAt_of_lt hb
    cases o.needRegs <;> cases o.needImm <;> simp [hs] <;> omega
  · have hs := Memory.byteAt_eq_none.2 (Nat.le_of_not_lt hb)
    cases o.needRegs <;> cases o.needImm <;> simp [hs] <;> omega

/-- What stands at the cursor where the header byte is legal. -/
theorem State.fetch_of_legal {s : State} {h : Byte} {o : Opcode} {f : Nibble} {mn : Mnemonic}
    (hh : s.stream.byteAt? s.cur.toNat = some h) (hc : classify h = .legal o f mn) :
    ∃ rest, s.fetch = .instr (mn.toInstr (s.regsAt o) (s.immAt o)) rest := by
  unfold State.fetch
  rw [State.fetchBytes_of_header hh, decode_cons, hc]
  simp only [DecodeResult.instr.injEq]
  refine ⟨_, ?_, rfl⟩
  unfold State.regsAt State.immAt
  congr 1
  · cases o.needRegs
    · simp
    · simp only [↓reduceIte]
      rw [show (9 : Nat) = 8 + 1 by rfl, takeRegs_readPrefix]
      cases s.stream.byteAt? (s.cur.toNat + 1) <;> rfl
  · cases o.needRegs <;> cases o.needImm <;> simp [takeImm, -Memory.readPrefix_length]
    · exact Memory.readPrefix_take _ _ _ _ (by decide)
    · rw [show (9 : Nat) = 8 + 1 by rfl, takeRegs_readPrefix]
      cases hb : s.stream.byteAt? (s.cur.toNat + 1)
      · have hb' : s.stream.byteAt? (s.cur.toNat + 1 + 1) = none := by
          rw [Memory.byteAt_eq_none] at hb ⊢; omega
        simp [Memory.readPrefix_eq_nil _ hb']
      · simp [Memory.readPrefix_take]

theorem exec_toInstr (mn : Mnemonic) (regs : RegRead) (imm : ImmRead) (s : State) :
    exec (mn.toInstr regs imm) s = deliver mn.opcode (highNibble mn.header) (lowNibble mn.header) mn
      (if mn.opcode.needRegs then regs else none) (if mn.opcode.needImm then imm else []) s := by
  rw [exec_eq_deliver]; simp [Mnemonic.toInstr_regs, Mnemonic.toInstr_imm]

/-! ## The step by what stands at the cursor -/

theorem step_of_legal {s : State} {h : Byte} {o : Opcode} {f : Nibble} {mn : Mnemonic} (hd : s.resetDone = true)
    (hr : s.status = .run) (hh : s.stream.byteAt? s.cur.toNat = some h) (hc : classify h = .legal o f mn) :
    step s = deliver o (highNibble h) f mn (s.regsAt o) (s.immAt o) s := by
  obtain ⟨rest, hf⟩ := State.fetch_of_legal hh hc
  rw [step_of_run hd hr, hf]
  obtain ⟨rfl, rfl, rfl⟩ := classify_eq_legal.1 hc
  simp only
  rw [exec_toInstr]
  unfold State.regsAt State.immAt
  congr 1
  · split <;> rfl
  · split <;> rfl

theorem step_of_badOpcode {s : State} {h : Byte} {v : Nibble} (hd : s.resetDone = true) (hr : s.status = .run)
    (hh : s.stream.byteAt? s.cur.toNat = some h) (hc : classify h = .badOpcode v) :
    step s = .next ((s.consume 1).raise (.invalidOpcode v s.pc)) := by
  have hf : s.fetch = decode (h :: s.stream.readPrefix (s.cur.toNat + 1) 9) := by
    unfold State.fetch; rw [State.fetchBytes_of_header hh]
  rw [decode_cons, hc] at hf
  rw [step_of_run hd hr, hf]

theorem step_of_badFunction {s : State} {h : Byte} {v : Nibble} (hd : s.resetDone = true) (hr : s.status = .run)
    (hh : s.stream.byteAt? s.cur.toNat = some h) (hc : classify h = .badFunction v) :
    step s = .next ((s.consume 1).raise (.invalidFunctionCode v s.pc)) := by
  have hf : s.fetch = decode (h :: s.stream.readPrefix (s.cur.toNat + 1) 9) := by
    unfold State.fetch; rw [State.fetchBytes_of_header hh]
  rw [decode_cons, hc] at hf
  rw [step_of_run hd hr, hf]

theorem step_of_noHeader {s : State} (hd : s.resetDone = true) (hr : s.status = .run)
    (hh : s.stream.byteAt? s.cur.toNat = none) : step s = .next (s.raise .endOfStream) := by
  have hf : s.fetch = decode [] := by unfold State.fetch; rw [State.fetchBytes_of_none hh]
  rw [step_of_run hd hr, hf]; rfl

/-- The state after a full record of the instruction at the cursor. -/
def State.afterFull (s : State) (h : Byte) (o : Opcode) (f : Nibble) (mn : Mnemonic) : State :=
  { s with
    pc := s.pc + BitVec.ofNat 64 o.len
    cur := s.cur + BitVec.ofNat 64 o.len
    events := s.events ++ [.full (buildRecord s.pc o (highNibble h) f mn (s.regsAt o) (s.immAt o))] }

/-- The state after the instruction at the cursor, cut short by the end of the stream. -/
def State.afterShort (s : State) (h : Byte) (o : Opcode) (f : Nibble) (mn : Mnemonic) : State :=
  let left := s.stream.size.val - s.cur.toNat
  { s with
    cur := s.cur + BitVec.ofNat 64 left
    status := .errMemory, errPc := s.pc, errLen := BitVec.ofNat 4 o.len, errCnt := BitVec.ofNat 4 left
    events := s.events ++ [.partialRecord (buildRecord s.pc o (highNibble h) f mn (s.regsAt o) (s.immAt o)),
      .terminal (.memoryAccessError s.pc (BitVec.ofNat 4 o.len) (BitVec.ofNat 4 left))] }

theorem step_of_full {s : State} {h : Byte} {o : Opcode} {f : Nibble} {mn : Mnemonic} (hd : s.resetDone = true)
    (hr : s.status = .run) (hh : s.stream.byteAt? s.cur.toNat = some h) (hc : classify h = .legal o f mn)
    (hl : o.len ≤ s.stream.size.val - s.cur.toNat) : step s = .next (s.afterFull h o f mn) := by
  rw [step_of_legal hd hr hh hc, deliver_of_sufficient _ (by rw [State.truncated_at o hh]; simp; omega),
    State.bytesRead_at o hh, Nat.min_eq_left hl]
  rfl

theorem step_of_short {s : State} {h : Byte} {o : Opcode} {f : Nibble} {mn : Mnemonic} (hd : s.resetDone = true)
    (hr : s.status = .run) (hh : s.stream.byteAt? s.cur.toNat = some h) (hc : classify h = .legal o f mn)
    (hl : s.stream.size.val - s.cur.toNat < o.len) : step s = .next (s.afterShort h o f mn) := by
  rw [step_of_legal hd hr hh hc, deliver_of_truncated _ (by rw [State.truncated_at o hh]; simpa using hl),
    State.bytesRead_at o hh, Nat.min_eq_right (Nat.le_of_lt hl)]
  rfl

/-- Everything a step after Reset can do: six cases, told apart by the status and by what stands at the cursor. -/
inductive StepCase (s t : State) : Prop where
  | latched (τ : Terminal) (hl : s.latched? = some τ) (ht : t = s.emit (.terminal τ))
  | noHeader (hr : s.status = .run) (hh : s.stream.byteAt? s.cur.toNat = none) (ht : t = s.raise .endOfStream)
  | badOpcode (hr : s.status = .run) (h : Byte) (hh : s.stream.byteAt? s.cur.toNat = some h)
      (hc : classify h = .badOpcode (highNibble h)) (hv : 12 ≤ (highNibble h).toNat)
      (ht : t = (s.consume 1).raise (.invalidOpcode (highNibble h) s.pc))
  | badFunction (hr : s.status = .run) (h : Byte) (hh : s.stream.byteAt? s.cur.toNat = some h)
      (hc : classify h = .badFunction (lowNibble h)) (o : Opcode) (ho : Opcode.ofNibble (highNibble h) = some o)
      (hm : o.mnemonic (lowNibble h) = none)
      (ht : t = (s.consume 1).raise (.invalidFunctionCode (lowNibble h) s.pc))
  | full (hr : s.status = .run) (h : Byte) (hh : s.stream.byteAt? s.cur.toNat = some h) (o : Opcode) (f : Nibble)
      (mn : Mnemonic) (hc : classify h = .legal o f mn) (hl : o.len ≤ s.stream.size.val - s.cur.toNat)
      (ht : t = s.afterFull h o f mn)
  | short (hr : s.status = .run) (h : Byte) (hh : s.stream.byteAt? s.cur.toNat = some h) (o : Opcode) (f : Nibble)
      (mn : Mnemonic) (hc : classify h = .legal o f mn) (hl : s.stream.size.val - s.cur.toNat < o.len)
      (ht : t = s.afterShort h o f mn)

/-- Every step after Reset answers a next state, by one of the six cases. -/
theorem step_total (s : State) (hd : s.resetDone = true) : ∃ t, step s = .next t ∧ StepCase s t := by
  cases hl : s.latched? with
  | some τ => exact ⟨_, step_of_latched hd hl, .latched τ hl rfl⟩
  | none =>
    have hr := (State.latched_none_iff s).1 hl
    cases hh : s.stream.byteAt? s.cur.toNat with
    | none => exact ⟨_, step_of_noHeader hd hr hh, .noHeader hr hh rfl⟩
    | some h =>
      cases hc : classify h with
      | badOpcode v =>
        obtain ⟨rfl, hv⟩ := classify_badOpcode hc
        exact ⟨_, step_of_badOpcode hd hr hh hc, .badOpcode hr h hh hc hv rfl⟩
      | badFunction v =>
        obtain ⟨rfl, o, ho, hm⟩ := classify_badFunction hc
        exact ⟨_, step_of_badFunction hd hr hh hc, .badFunction hr h hh hc o ho hm rfl⟩
      | legal o f mn =>
        by_cases hlen : o.len ≤ s.stream.size.val - s.cur.toNat
        · exact ⟨_, step_of_full hd hr hh hc hlen, .full hr h hh o f mn hc hlen rfl⟩
        · exact ⟨_, step_of_short hd hr hh hc (by omega), .short hr h hh o f mn hc (by omega) rfl⟩

/-- A step that answers a next state has had its Reset and is one of the six cases. -/
theorem step_cases {s t : State} (h : step s = .next t) : s.resetDone = true ∧ StepCase s t := by
  have hd : s.resetDone = true := by
    cases hd : s.resetDone with
    | true => rfl
    | false => rw [step_of_noReset hd] at h; simp at h
  obtain ⟨u, hu, hcase⟩ := step_total s hd
  rw [hu] at h
  cases h
  exact ⟨hd, hcase⟩

/-- The cursor moves without wrapping, since what is read lies below N. -/
theorem State.cur_add_toNat (s : State) (k : Nat) (h : k ≤ s.stream.size.val - s.cur.toNat) :
    (s.cur + BitVec.ofNat 64 k).toNat = s.cur.toNat + k := by
  have hN := s.stream.size.isLt
  have hc := s.cur.isLt
  rw [BitVec.toNat_add, BitVec.toNat_ofNat]
  omega

/-! ## Runs of several steps -/

/-- One step of a run that answers a next state. -/
theorem run_succ_of_next {s t : State} (k : Nat) (h : step s = .next t) :
    Sys2Proof.core.run (k + 1) s = Sys2Proof.core.run k t := by
  have gen : ∀ (M : Host.Core) (a b : M.State), M.step a = .next b → M.run (k + 1) a = M.run k b := by
    intro M a b hab; simp [Host.Core.run, hab]
  exact gen Sys2Proof.core s t h

/-- A refused step ends a run. -/
theorem run_succ_of_refused {s : State} {r : Refusal} (k : Nat) (h : step s = .refused r) :
    Sys2Proof.core.run (k + 1) s = .refused r := by
  have gen : ∀ (M : Host.Core) (a : M.State) (q : M.Refusal), M.step a = .refused q → M.run (k + 1) a = .refused q := by
    intro M a q hab; simp [Host.Core.run, hab]
  exact gen Sys2Proof.core s r h

theorem run_zero (s : State) : Sys2Proof.core.run 0 s = .next s := rfl

end Sys2Proof.Machine
end

