-- ==== Sys2Proof/Tests/Slice0.lean ====
section
/-!
SUPPORT. The model's own tests: ill-formed terms refused, words written out from the spec's encodings decoded, single
steps against the spec's vectors (spec/95_test_vectors.md), and for every obligation with hypotheses a named witness
that meets them.
-/
namespace Sys2Proof.Tests

open Sys2Proof Sys2Proof.Machine Sys2Proof.Claims

/-! ## Helpers -/

/-- A run begun on the given bytes at the given offset. -/
def start (bytes : List Byte) (p : Word := 0) : State := resetWith (Memory.ofBytes bytes) (some p)

/-- A state in a terminal status. -/
def inStatus (a : Status) : State :=
  { start [0xC5, 0x10] with cur := 1, status := a, errVal := 12, errLen := 10, errCnt := 1 }

/-- A state that has had no Reset. -/
def unreset : State := { State.reset with resetDone := false }

/-- A byte source of 2^64 - 1 bytes, all zero but those given from an offset on (spec/95_test_vectors.md 3.9). -/
def longStream (a : Nat) (bytes : List Byte) : Memory :=
  Memory.writeAll { cells := [], size := ⟨2 ^ 64 - 1, by decide⟩ } a bytes

/-- What a step does, in what the spec lets a caller see: pc, cur, status and the events. -/
def seen (o : Host.Outcome State Fault Refusal) : Option (Word × Word × Status × List Event) :=
  match o with
  | .next t => some (t.pc, t.cur, t.status, t.events)
  | .fault _ => none
  | .refused _ => none

/-- The latches after a step, as a caller may read them. -/
def latches (o : Host.Outcome State Fault Refusal) : Option (Option Word × Option Nibble × Option Nibble × Option Nibble) :=
  match o with
  | .next t => some (t.errPc?, t.errVal?, t.errLen?, t.errCnt?)
  | .fault _ => none
  | .refused _ => none

/-- Whether a step answers a next state with a property. -/
def nextHas (P : State → Prop) [DecidablePred P] (o : Host.Outcome State Fault Refusal) : Bool :=
  match o with
  | .next t => decide (P t)
  | .fault _ => false
  | .refused _ => false

theorem exists_next {P : State → Prop} [DecidablePred P] {o : Host.Outcome State Fault Refusal}
    (h : nextHas P o = true) : ∃ t, o = .next t ∧ P t := by
  cases o with
  | next t => exact ⟨t, rfl, of_decide_eq_true h⟩
  | fault r => simp [nextHas] at h
  | refused r => simp [nextHas] at h

theorem start_ready (bytes : List Byte) (p : Word) : (start bytes p).Ready := ⟨rfl, rfl, rfl⟩

/-! ## WellFormed refuses -/

theorem test_nine_immediate_bytes_refused : (Instr.jmp [1, 2, 3, 4, 5, 6, 7, 8, 9]).WellFormed = false := by decide

theorem test_immediate_without_register_byte_refused : (Instr.irmovq none [1]).WellFormed = false := by decide

theorem test_no_register_byte_no_immediate_accepted : (Instr.irmovq none []).WellFormed = true := by decide

/-! ## Decoding: one word for each constructor, from spec/30_encoding.md R52 and R58 to R61 -/

theorem test_decode_halt : decode [0x00, 0x10] = .instr .halt [0x10] := by decide

theorem test_decode_nop : decode [0x10, 0x10] = .instr .nop [0x10] := by decide

theorem test_decode_ret : decode [0x90, 0x10] = .instr .ret [0x10] := by decide

theorem test_decode_rrmovq : decode [0x20, 0x12] = .instr (.rrmovq (some ⟨1, 2⟩)) [] := by decide

theorem test_decode_cmovle : decode [0x21, 0x34] = .instr (.cmovle (some ⟨3, 4⟩)) [] := by decide

theorem test_decode_cmovl : decode [0x22, 0x56] = .instr (.cmovl (some ⟨5, 6⟩)) [] := by decide

theorem test_decode_cmove : decode [0x23, 0x78] = .instr (.cmove (some ⟨7, 8⟩)) [] := by decide

theorem test_decode_cmovne : decode [0x24, 0x9A] = .instr (.cmovne (some ⟨9, 10⟩)) [] := by decide

theorem test_decode_cmovge : decode [0x25, 0xBC] = .instr (.cmovge (some ⟨11, 12⟩)) [] := by decide

theorem test_decode_cmovg : decode [0x26, 0xDE] = .instr (.cmovg (some ⟨13, 14⟩)) [] := by decide

theorem test_decode_addq : decode [0x60, 0xF0] = .instr (.addq (some ⟨15, 0⟩)) [] := by decide

theorem test_decode_subq : decode [0x61, 0x01] = .instr (.subq (some ⟨0, 1⟩)) [] := by decide

theorem test_decode_andq : decode [0x62, 0x23] = .instr (.andq (some ⟨2, 3⟩)) [] := by decide

theorem test_decode_xorq : decode [0x63, 0x45] = .instr (.xorq (some ⟨4, 5⟩)) [] := by decide

theorem test_decode_mulq : decode [0x64, 0x67] = .instr (.mulq (some ⟨6, 7⟩)) [] := by decide

theorem test_decode_divq : decode [0x65, 0x89] = .instr (.divq (some ⟨8, 9⟩)) [] := by decide

theorem test_decode_modq : decode [0x66, 0xAB] = .instr (.modq (some ⟨10, 11⟩)) [] := by decide

theorem test_decode_pushq : decode [0xA0, 0xCD] = .instr (.pushq (some ⟨12, 13⟩)) [] := by decide

theorem test_decode_popq : decode [0xB0, 0xEF] = .instr (.popq (some ⟨14, 15⟩)) [] := by decide

theorem test_decode_jmp : decode [0x70, 0x88, 0x77, 0x66, 0x55, 0x44, 0x33, 0x22, 0x11, 0x10] =
    .instr (.jmp [0x88, 0x77, 0x66, 0x55, 0x44, 0x33, 0x22, 0x11]) [0x10] := by decide

theorem test_decode_jle : decode [0x71, 0x88, 0x77, 0x66, 0x55, 0x44, 0x33, 0x22, 0x11, 0x10] =
    .instr (.jle [0x88, 0x77, 0x66, 0x55, 0x44, 0x33, 0x22, 0x11]) [0x10] := by decide

theorem test_decode_jl : decode [0x72, 0x88, 0x77, 0x66, 0x55, 0x44, 0x33, 0x22, 0x11, 0x10] =
    .instr (.jl [0x88, 0x77, 0x66, 0x55, 0x44, 0x33, 0x22, 0x11]) [0x10] := by decide

theorem test_decode_je : decode [0x73, 0x88, 0x77, 0x66, 0x55, 0x44, 0x33, 0x22, 0x11, 0x10] =
    .instr (.je [0x88, 0x77, 0x66, 0x55, 0x44, 0x33, 0x22, 0x11]) [0x10] := by decide

theorem test_decode_jne : decode [0x74, 0x88, 0x77, 0x66, 0x55, 0x44, 0x33, 0x22, 0x11, 0x10] =
    .instr (.jne [0x88, 0x77, 0x66, 0x55, 0x44, 0x33, 0x22, 0x11]) [0x10] := by decide

theorem test_decode_jge : decode [0x75, 0x88, 0x77, 0x66, 0x55, 0x44, 0x33, 0x22, 0x11, 0x10] =
    .instr (.jge [0x88, 0x77, 0x66, 0x55, 0x44, 0x33, 0x22, 0x11]) [0x10] := by decide

theorem test_decode_jg : decode [0x76, 0x88, 0x77, 0x66, 0x55, 0x44, 0x33, 0x22, 0x11, 0x10] =
    .instr (.jg [0x88, 0x77, 0x66, 0x55, 0x44, 0x33, 0x22, 0x11]) [0x10] := by decide

theorem test_decode_call : decode [0x80, 0x88, 0x77, 0x66, 0x55, 0x44, 0x33, 0x22, 0x11, 0x10] =
    .instr (.call [0x88, 0x77, 0x66, 0x55, 0x44, 0x33, 0x22, 0x11]) [0x10] := by decide

theorem test_decode_irmovq : decode [0x30, 0xF6, 0x88, 0x77, 0x66, 0x55, 0x44, 0x33, 0x22, 0x11] =
    .instr (.irmovq (some ⟨15, 6⟩) [0x88, 0x77, 0x66, 0x55, 0x44, 0x33, 0x22, 0x11]) [] := by decide

theorem test_decode_rmmovq : decode [0x40, 0x27, 0x88, 0x77, 0x66, 0x55, 0x44, 0x33, 0x22, 0x11] =
    .instr (.rmmovq (some ⟨2, 7⟩) [0x88, 0x77, 0x66, 0x55, 0x44, 0x33, 0x22, 0x11]) [] := by decide

theorem test_decode_mrmovq : decode [0x50, 0x05, 0x88, 0x77, 0x66, 0x55, 0x44, 0x33, 0x22, 0x11] =
    .instr (.mrmovq (some ⟨0, 5⟩) [0x88, 0x77, 0x66, 0x55, 0x44, 0x33, 0x22, 0x11]) [] := by decide

/-- Decoding of what the stream's end cuts short, and of illegal headers (spec/95_test_vectors.md 3.7). -/
theorem test_decode_rejects_by_name : decode [0xC5] = .badOpcode 12 ∧ decode [0x31] = .badFunction 1 ∧
    decode [0x7A] = .badFunction 10 ∧ decode [] = .noHeader ∧ decode [0x50] = .instr (.mrmovq none []) [] := by decide

/-- A table word gives the header byte; its operand bytes are zeros. -/
theorem test_table_words : decodeTableWord 8 0x76 = some (.jg [0, 0, 0, 0, 0, 0, 0, 0]) ∧
    decodeTableWord 8 0x40 = some (.rmmovq (some ⟨0, 0⟩) [0, 0, 0, 0, 0, 0, 0, 0]) ∧
    decodeTableWord 16 0xF6A0 = some (.pushq (some ⟨15, 6⟩)) ∧ decodeTableWord 8 0xC0 = none := by decide

theorem test_placed_word_runs_from_reset : seen (step (State.reset.withFetchWord 8 0x30)) =
    some (10, 10, .run, [.full (recordL10 0 3 .irmovq (some ⟨0, 0⟩) [0, 0, 0, 0, 0, 0, 0, 0])]) := by decide

/-! ## One step, against spec/95_test_vectors.md and the rules' worked examples -/

/-- R120, worked example. -/
theorem test_halt : seen (step (start [0x00])) = some (1, 1, .run, [.full (recordL1 0 0 .halt)]) := by decide

/-- R121, worked example: `nop` at 0x2a, here with zeros before it. -/
theorem test_nop : seen (step { start [0x10] with stream := longStream 0x2a [0x10], pc := 0x2a, cur := 0x2a }) =
    some (0x2b, 0x2b, .run, [.full (recordL1 0x2a 1 .nop)]) := by decide

/-- R122, worked example. -/
theorem test_ret : seen (step (start [0x90, 0x10])) = some (1, 1, .run, [.full (recordL1 0 9 .ret)]) := by decide

theorem test_rrmovq : seen (step (start [0x20, 0x12])) =
    some (2, 2, .run, [.full (recordL2 0 2 0 .rrmovq (some ⟨1, 2⟩))]) := by decide

theorem test_cmovle : seen (step (start [0x21, 0x34])) =
    some (2, 2, .run, [.full (recordL2 0 2 1 .cmovle (some ⟨3, 4⟩))]) := by decide

theorem test_cmovl : seen (step (start [0x22, 0x56])) =
    some (2, 2, .run, [.full (recordL2 0 2 2 .cmovl (some ⟨5, 6⟩))]) := by decide

theorem test_cmove : seen (step (start [0x23, 0x78])) =
    some (2, 2, .run, [.full (recordL2 0 2 3 .cmove (some ⟨7, 8⟩))]) := by decide

theorem test_cmovne : seen (step (start [0x24, 0x9A])) =
    some (2, 2, .run, [.full (recordL2 0 2 4 .cmovne (some ⟨9, 10⟩))]) := by decide

theorem test_cmovge : seen (step (start [0x25, 0xBC])) =
    some (2, 2, .run, [.full (recordL2 0 2 5 .cmovge (some ⟨11, 12⟩))]) := by decide

theorem test_cmovg : seen (step (start [0x26, 0xDE])) =
    some (2, 2, .run, [.full (recordL2 0 2 6 .cmovg (some ⟨13, 14⟩))]) := by decide

theorem test_addq : seen (step (start [0x60, 0xF0])) =
    some (2, 2, .run, [.full (recordL2 0 6 0 .addq (some ⟨15, 0⟩))]) := by decide

theorem test_subq : seen (step (start [0x61, 0x01])) =
    some (2, 2, .run, [.full (recordL2 0 6 1 .subq (some ⟨0, 1⟩))]) := by decide

theorem test_andq : seen (step (start [0x62, 0x23])) =
    some (2, 2, .run, [.full (recordL2 0 6 2 .andq (some ⟨2, 3⟩))]) := by decide

theorem test_xorq : seen (step (start [0x63, 0x45])) =
    some (2, 2, .run, [.full (recordL2 0 6 3 .xorq (some ⟨4, 5⟩))]) := by decide

theorem test_mulq : seen (step (start [0x64, 0x67])) =
    some (2, 2, .run, [.full (recordL2 0 6 4 .mulq (some ⟨6, 7⟩))]) := by decide

theorem test_divq : seen (step (start [0x65, 0x89])) =
    some (2, 2, .run, [.full (recordL2 0 6 5 .divq (some ⟨8, 9⟩))]) := by decide

theorem test_modq : seen (step (start [0x66, 0xAB])) =
    some (2, 2, .run, [.full (recordL2 0 6 6 .modq (some ⟨10, 11⟩))]) := by decide

theorem test_pushq : seen (step (start [0xA0, 0xCD])) =
    some (2, 2, .run, [.full (recordL2 0 10 0 .pushq (some ⟨12, 13⟩))]) := by decide

theorem test_popq : seen (step (start [0xB0, 0xEF])) =
    some (2, 2, .run, [.full (recordL2 0 11 0 .popq (some ⟨14, 15⟩))]) := by decide

theorem test_rrmovq_truncated : seen (step (start [0x20])) =
    some (0, 1, .errMemory, [.partialRecord (recordL2 0 2 0 .rrmovq none), .terminal (.memoryAccessError 0 2 1)]) := by decide

theorem test_modq_truncated : seen (step (start [0x66])) =
    some (0, 1, .errMemory, [.partialRecord (recordL2 0 6 6 .modq none), .terminal (.memoryAccessError 0 2 1)]) := by decide

theorem test_popq_truncated : seen (step (start [0xB0])) =
    some (0, 1, .errMemory, [.partialRecord (recordL2 0 11 0 .popq none), .terminal (.memoryAccessError 0 2 1)]) := by decide

theorem test_jmp : seen (step (start [0x70, 0x88, 0x77, 0x66, 0x55, 0x44, 0x33, 0x22, 0x11])) = some (9, 9, .run, [.full
    { programCounter := 0, opcode := 7, functionCode := 0, mnemonic := .jmp, registersPresent := false, registersValid := false,
      registerA := none, registerB := none, immediateValuePresent := true, immediateValid := true,
      immediateValue := 0x1122334455667788, nextProgramCounter := 9 }]) := by decide

theorem test_jle : seen (step (start [0x71, 0x88, 0x77, 0x66, 0x55, 0x44, 0x33, 0x22, 0x11])) = some (9, 9, .run, [.full
    { programCounter := 0, opcode := 7, functionCode := 1, mnemonic := .jle, registersPresent := false, registersValid := false,
      registerA := none, registerB := none, immediateValuePresent := true, immediateValid := true,
      immediateValue := 0x1122334455667788, nextProgramCounter := 9 }]) := by decide

theorem test_jl : seen (step (start [0x72, 0x88, 0x77, 0x66, 0x55, 0x44, 0x33, 0x22, 0x11])) = some (9, 9, .run, [.full
    { programCounter := 0, opcode := 7, functionCode := 2, mnemonic := .jl, registersPresent := false, registersValid := false,
      registerA := none, registerB := none, immediateValuePresent := true, immediateValid := true,
      immediateValue := 0x1122334455667788, nextProgramCounter := 9 }]) := by decide

theorem test_je : seen (step (start [0x73, 0x88, 0x77, 0x66, 0x55, 0x44, 0x33, 0x22, 0x11])) = some (9, 9, .run, [.full
    { programCounter := 0, opcode := 7, functionCode := 3, mnemonic := .je, registersPresent := false, registersValid := false,
      registerA := none, registerB := none, immediateValuePresent := true, immediateValid := true,
      immediateValue := 0x1122334455667788, nextProgramCounter := 9 }]) := by decide

theorem test_jne : seen (step (start [0x74, 0x88, 0x77, 0x66, 0x55, 0x44, 0x33, 0x22, 0x11])) = some (9, 9, .run, [.full
    { programCounter := 0, opcode := 7, functionCode := 4, mnemonic := .jne, registersPresent := false, registersValid := false,
      registerA := none, registerB := none, immediateValuePresent := true, immediateValid := true,
      immediateValue := 0x1122334455667788, nextProgramCounter := 9 }]) := by decide

theorem test_jge : seen (step (start [0x75, 0x88, 0x77, 0x66, 0x55, 0x44, 0x33, 0x22, 0x11])) = some (9, 9, .run, [.full
    { programCounter := 0, opcode := 7, functionCode := 5, mnemonic := .jge, registersPresent := false, registersValid := false,
      registerA := none, registerB := none, immediateValuePresent := true, immediateValid := true,
      immediateValue := 0x1122334455667788, nextProgramCounter := 9 }]) := by decide

theorem test_jg : seen (step (start [0x76, 0x88, 0x77, 0x66, 0x55, 0x44, 0x33, 0x22, 0x11])) = some (9, 9, .run, [.full
    { programCounter := 0, opcode := 7, functionCode := 6, mnemonic := .jg, registersPresent := false, registersValid := false,
      registerA := none, registerB := none, immediateValuePresent := true, immediateValid := true,
      immediateValue := 0x1122334455667788, nextProgramCounter := 9 }]) := by decide

theorem test_call : seen (step (start [0x80, 0x88, 0x77, 0x66, 0x55, 0x44, 0x33, 0x22, 0x11])) = some (9, 9, .run, [.full
    { programCounter := 0, opcode := 8, functionCode := 0, mnemonic := .call, registersPresent := false, registersValid := false,
      registerA := none, registerB := none, immediateValuePresent := true, immediateValid := true,
      immediateValue := 0x1122334455667788, nextProgramCounter := 9 }]) := by decide

theorem test_jmp_truncated : seen (step (start [0x70, 0x88, 0x77, 0x66, 0x55, 0x44, 0x33, 0x22])) = some (0, 8, .errMemory, [.partialRecord
    { programCounter := 0, opcode := 7, functionCode := 0, mnemonic := .jmp, registersPresent := false, registersValid := false,
      registerA := none, registerB := none, immediateValuePresent := true, immediateValid := true,
      immediateValue := 0x22334455667788, nextProgramCounter := 9 },
    .terminal (.memoryAccessError 0 9 8)]) := by decide

theorem test_call_truncated : seen (step (start [0x80, 0x88])) = some (0, 2, .errMemory, [.partialRecord
    { programCounter := 0, opcode := 8, functionCode := 0, mnemonic := .call, registersPresent := false, registersValid := false,
      registerA := none, registerB := none, immediateValuePresent := true, immediateValid := true,
      immediateValue := 0x88, nextProgramCounter := 9 },
    .terminal (.memoryAccessError 0 9 2)]) := by decide

theorem test_je_truncated : seen (step (start [0x73])) = some (0, 1, .errMemory, [.partialRecord
    { programCounter := 0, opcode := 7, functionCode := 3, mnemonic := .je, registersPresent := false, registersValid := false,
      registerA := none, registerB := none, immediateValuePresent := true, immediateValid := false,
      immediateValue := 0x0, nextProgramCounter := 9 },
    .terminal (.memoryAccessError 0 9 1)]) := by decide

/-- E4, the source's own example: irmovq at offset 8. -/
theorem test_irmovq : seen (step (start [0x10, 0x10, 0x10, 0x10, 0x10, 0x10, 0x10, 0x10, 0x30, 0xF6, 0x01, 0x00, 0x00, 0x00, 0x00, 0x00, 0x00, 0x00] 8)) = some (18, 18, .run, [.full
    { programCounter := 8, opcode := 3, functionCode := 0, mnemonic := .irmovq, registersPresent := true, registersValid := true,
      registerA := some 15, registerB := some 6, immediateValuePresent := true, immediateValid := true,
      immediateValue := 0x1, nextProgramCounter := 18 }]) := by decide

theorem test_rmmovq : seen (step (start [0x40, 0x27, 0xF8, 0xFF, 0xFF, 0xFF, 0xFF, 0xFF, 0xFF, 0xFF])) = some (10, 10, .run, [.full
    { programCounter := 0, opcode := 4, functionCode := 0, mnemonic := .rmmovq, registersPresent := true, registersValid := true,
      registerA := some 2, registerB := some 7, immediateValuePresent := true, immediateValid := true,
      immediateValue := 0xFFFFFFFFFFFFFFF8, nextProgramCounter := 10 }]) := by decide

theorem test_mrmovq : seen (step (start [0x50, 0x34, 0x00, 0x00, 0x00, 0x00, 0x00, 0x00, 0x00, 0x80])) = some (10, 10, .run, [.full
    { programCounter := 0, opcode := 5, functionCode := 0, mnemonic := .mrmovq, registersPresent := true, registersValid := true,
      registerA := some 3, registerB := some 4, immediateValuePresent := true, immediateValid := true,
      immediateValue := 0x8000000000000000, nextProgramCounter := 10 }]) := by decide

/-- E7: the header byte alone. -/
theorem test_irmovq_header_alone : seen (step (start [0x30])) = some (0, 1, .errMemory, [.partialRecord
    { programCounter := 0, opcode := 3, functionCode := 0, mnemonic := .irmovq, registersPresent := true, registersValid := false,
      registerA := none, registerB := none, immediateValuePresent := true, immediateValid := false,
      immediateValue := 0x0, nextProgramCounter := 10 },
    .terminal (.memoryAccessError 0 10 1)]) := by decide

theorem test_rmmovq_immediate_missing : seen (step (start [0x40, 0xF6])) = some (0, 2, .errMemory, [.partialRecord
    { programCounter := 0, opcode := 4, functionCode := 0, mnemonic := .rmmovq, registersPresent := true, registersValid := true,
      registerA := some 15, registerB := some 6, immediateValuePresent := true, immediateValid := false,
      immediateValue := 0x0, nextProgramCounter := 10 },
    .terminal (.memoryAccessError 0 10 2)]) := by decide

theorem test_mrmovq_one_byte_short : seen (step (start [0x50, 0xF6, 0x88, 0x77, 0x66, 0x55, 0x44, 0x33, 0x22])) = some (0, 9, .errMemory, [.partialRecord
    { programCounter := 0, opcode := 5, functionCode := 0, mnemonic := .mrmovq, registersPresent := true, registersValid := true,
      registerA := some 15, registerB := some 6, immediateValuePresent := true, immediateValid := true,
      immediateValue := 0x22334455667788, nextProgramCounter := 10 },
    .terminal (.memoryAccessError 0 10 9)]) := by decide

/-- E8 and 3.8: the opcode is reported, not the function code. -/
theorem test_invalid_opcode : seen (step (start [0xC5, 0x10])) = some (0, 1, .errOpcode, [.terminal (.invalidOpcode 12 0)]) ∧
    latches (step (start [0xC5, 0x10])) = some (some 0, some 12, none, none) := by decide

/-- E9. -/
theorem test_invalid_function_code :
    seen (step (start [0x05])) = some (0, 1, .errFunction, [.terminal (.invalidFunctionCode 5 0)]) ∧
    latches (step (start [0x05])) = some (some 0, some 5, none, none) := by decide

/-- R205: not MemoryAccessError. -/
theorem test_function_code_before_truncation :
    seen (step (start [0x31])) = some (0, 1, .errFunction, [.terminal (.invalidFunctionCode 1 0)]) := by decide

/-- E10, and START beyond the stream (3.7). -/
theorem test_end_of_stream : seen (step (start [])) = some (0, 0, .ended, [.terminal .endOfStream]) ∧
    seen (step (start [0x10] 5)) = some (5, 5, .ended, [.terminal .endOfStream]) := by decide

/-- 3.8: the error again, without the partial record; nothing read. -/
theorem test_latched_error_again :
    seen (step { start [0x30, 0xF6, 0x01] with cur := 3, status := .errMemory, errPc := 0, errLen := 10, errCnt := 3 }) =
      some (0, 3, .errMemory, [.terminal (.memoryAccessError 0 10 3)]) := by decide

/-- 3.9: the next program counter of a partial record wraps. -/
theorem test_partial_record_wraps :
    (seen (step (resetWith (longStream 0xfffffffffffffffb [0x30, 0xF6, 0x01, 0x00]) (some 0xfffffffffffffffb)))).map
      (fun o => (o.2.1, o.2.2.1, o.2.2.2.map fun
        | .partialRecord r => (r.nextProgramCounter, r.immediateValue)
        | .full _ => (0, 0)
        | .terminal _ => (1, 1))) = some (0xffffffffffffffff, .errMemory, [(5, 1), (1, 1)]) := by decide

/-- 3.9: a full record ends at N without wrapping. -/
theorem test_full_record_at_the_top :
    (seen (step (resetWith (longStream 0xfffffffffffffff5 [0x30, 0xF6, 0x01]) (some 0xfffffffffffffff5)))).map
      (fun o => (o.1, o.2.1, o.2.2.1)) = some (0xffffffffffffffff, 0xffffffffffffffff, .run) := by decide

theorem test_step_before_reset_refused : step unreset = .refused .stepBeforeReset := rfl

/-- R92: raw bytes of 0x0123456789abcdef in stream order (3.6). -/
theorem test_raw_bytes : rawBytes 0x0123456789abcdef = [0xEF, 0xCD, 0xAB, 0x89, 0x67, 0x45, 0x23, 0x01] := by decide

/-- 3.6: no sign extension. -/
theorem test_immediate_values : immValue [0xFF] = 0xFF ∧ immValue [0x34, 0x12] = 0x1234 ∧ immValue [] = 0 ∧
    immValue [1, 2, 3, 4, 5, 6, 7, 8] = 0x0807060504030201 := by decide

/-- Writing the value an unlisted offset reads as removes the cell. -/
theorem test_write_keeps_canonical : (((Memory.ofBytes [1, 2, 3]).write 1 0).cells = [(0, 1), (2, 3)]) := by decide

/-! ## Witnesses: states and operands that meet each obligation's hypotheses together, clause by clause -/

theorem witness_DecodeOfEncodeReturnsInstruction :
    (Instr.irmovq (some ⟨15, 6⟩) [1, 0, 0, 0, 0, 0, 0, 0]).WellFormed = true ∧
    (Instr.irmovq (some ⟨15, 6⟩) [1, 0, 0, 0, 0, 0, 0, 0]).complete = true ∧
    (Instr.call [1, 2, 3, 4, 5, 6, 7]).WellFormed = true ∧ (Instr.call [1, 2, 3, 4, 5, 6, 7]).complete = false := by decide

theorem witness_EncodeOfDecodeReturnsBytes : decode [0x21, 0x34, 0x10] = .instr (.cmovle (some ⟨3, 4⟩)) [0x10] ∧
    decode [0x21] = .instr (.cmovle none) [] := by decide

theorem witness_ClassifierIsOpcodeThenFunctionTest :
    Pseudo.opLegal (highNibble 0xC0) = false ∧
    (Pseudo.opLegal (highNibble 0xBF) = true ∧ Pseudo.funLegal (highNibble 0xBF) (lowNibble 0xBF) = false) ∧
    (Pseudo.opLegal (highNibble 0x67) = true ∧ Pseudo.funLegal (highNibble 0x67) (lowNibble 0x67) = false) ∧
    (Pseudo.opLegal (highNibble 0xB0) = true ∧ Pseudo.funLegal (highNibble 0xB0) (lowNibble 0xB0) = true) ∧
    (Pseudo.opLegal (highNibble 0x66) = true ∧ Pseudo.funLegal (highNibble 0x66) (lowNibble 0x66) = true) := by decide

/-- A byte list of length 8 and the empty one; the last byte, and the first bit above the bytes obtained. -/
theorem witness_ImmediateIsLittleEndianWithZeroFill :
    ([0xEF, 0xCD, 0xAB, 0x89, 0x67, 0x45, 0x23, 0x01] : List Byte).length ≤ 8 ∧
    ([0xEF, 0xCD, 0xAB, 0x89, 0x67, 0x45, 0x23, 0x01] : List Byte)[7]? = some 0x01 ∧
    ([] : List Byte).length ≤ 8 ∧ 8 * ([0xFF] : List Byte).length ≤ 8 := by decide

theorem witness_RawBytesRecoverTheImmediate :
    ([] : List Byte).length ≤ 8 ∧ ([1, 2, 3, 4, 5, 6, 7, 8] : List Byte).length ≤ 8 := by decide

theorem witness_ImmediateMarksByByteCount :
    ([] : List Byte).length = 0 ∧ ([1, 2, 3, 4, 5, 6, 7, 8] : List Byte).length ≤ 8 := by decide

/-- A read in full, one cut short after one byte, and one that obtains nothing. -/
theorem witness_StreamReadDeliversLongestPrefix :
    0 < (streamRead 1 (start [5, 6])).1 ∧ (streamRead 8 (start [5, 6] 1)).1 = 1 ∧ (streamRead 8 (start [5, 6] 2)).1 = 0 := by
  decide

theorem witness_AvailableIffBelowSize : (Memory.ofBytes [5, 6]).byteAt? 2 = none ∧ 2 ≤ 2 := by decide

theorem witness_CanonicalStreamsWithEqualBytesAreEqual :
    (Memory.ofBytes [0, 1]).wf = true ∧ ((Memory.ofBytes [5, 1]).write 0 0).wf = true ∧
    ∀ a, (Memory.ofBytes [0, 1]).byteAt? a = ((Memory.ofBytes [5, 1]).write 0 0).byteAt? a := by
  have h : Memory.ofBytes [0, 1] = (Memory.ofBytes [5, 1]).write 0 0 := by decide
  exact ⟨by decide, by decide, fun a => by rw [h]⟩

theorem witness_StepRunsTheDecodedInstruction :
    (start [0x60, 0x44]).resetDone = true ∧ (start [0x60, 0x44]).status = .run ∧
    decode ((start [0x60, 0x44]).stream.readPrefix (start [0x60, 0x44]).cur.toNat 10) = .instr (.addq (some ⟨4, 4⟩)) [] := by
  decide

theorem witness_StepIsDecodeStep : (start [0x30]).resetDone = true ∧ (inStatus .errOpcode).resetDone = true := by decide

/-- At offset 0 and at the last offset that has ten offsets after it. -/
theorem witness_PlacedWordRunsNext :
    State.reset.stream.wf = true ∧ State.reset.pc.toNat + 10 < 2 ^ 64 ∧
    ({ State.reset with pc := 0xfffffffffffffff5 } : State).pc.toNat + 10 < 2 ^ 64 ∧
    decodeTableWord 8 0x10 = some .nop := by decide

theorem witness_EveryStepHasOneOutcome : (start []).resetDone = true ∧ (start []).status = .run := by decide

theorem witness_NoStepWritesTheStream : ∃ t, step (start [0x40, 0x27]) = .next t ∧ t.status = .errMemory :=
  exists_next (by decide)

theorem witness_OutcomeIndependentOfDeliveredEvents : (start [0x10]).resetDone = true := by decide

/-- Two boundaries with the same illegal opcode, two with the same illegal function code. -/
theorem witness_LegalityDependsOnHeaderByteAlone :
    ((start [0xC5]).Ready ∧ (start [0x10, 0xC5] 1).Ready ∧
      (start [0xC5]).stream.byteAt? (start [0xC5]).pc.toNat = some 0xC5 ∧
      (start [0x10, 0xC5] 1).stream.byteAt? (start [0x10, 0xC5] 1).pc.toNat = some 0xC5 ∧
      (∃ t, step (start [0xC5]) = .next t ∧ t.status = .errOpcode) ∧
      ∃ t, step (start [0x10, 0xC5] 1) = .next t ∧ t.status = .errOpcode) ∧
    ((start [0x27]).Ready ∧ (start [0x27, 0x00]).Ready ∧
      (start [0x27]).stream.byteAt? (start [0x27]).pc.toNat = some 0x27 ∧
      (start [0x27, 0x00]).stream.byteAt? (start [0x27, 0x00]).pc.toNat = some 0x27 ∧
      (∃ t, step (start [0x27]) = .next t ∧ t.status = .errFunction) ∧
      ∃ t, step (start [0x27, 0x00]) = .next t ∧ t.status = .errFunction) :=
  ⟨⟨start_ready _ _, start_ready _ _, by decide, by decide, exists_next (by decide), exists_next (by decide)⟩,
    start_ready _ _, start_ready _ _, by decide, by decide, exists_next (by decide), exists_next (by decide)⟩

theorem witness_PcMovesOnlyByDeclaredLength :
    (∃ t, step (start [0x20, 0xFF]) = .next t ∧ t.pc ≠ (start [0x20, 0xFF]).pc) ∧ (start [0x20, 0xFF]).Ready ∧
    (∃ t, step (start [0x20, 0xFF]) = .next t ∧ t.status = .run) ∧ (start [0x20]).Ready ∧
    ∃ t, step (start [0x20]) = .next t ∧ t.status ≠ .run :=
  ⟨exists_next (by decide), start_ready _ _, exists_next (by decide), start_ready _ _, exists_next (by decide)⟩

theorem witness_CursorAdvancesByBytesConsumed :
    (∀ bytes, (start bytes).resetDone = true ∧ (start bytes).status = .run) ∧
    (∃ t, step (start []) = .next t ∧ t.status = .ended) ∧ (∃ t, step (start [0xFF]) = .next t ∧ t.status = .errOpcode) ∧
    (∃ t, step (start [0x81]) = .next t ∧ t.status = .errFunction) ∧
    (∃ t, step (start [0x80, 1, 2, 3, 4, 5, 6, 7]) = .next t ∧ t.status = .errMemory) ∧
    ∃ t, step (start [0x80, 1, 2, 3, 4, 5, 6, 7, 8]) = .next t ∧ t.status = .run :=
  ⟨fun _ => ⟨rfl, rfl⟩, exists_next (by decide), exists_next (by decide), exists_next (by decide), exists_next (by decide),
    exists_next (by decide)⟩

theorem witness_DeliveredRecordsAreSound :
    (∃ t, step (start [0x90]) = .next t ∧ t.events = (start [0x90]).events ++ [.full (recordL1 0 9 .ret)]) ∧
    ∃ t, step (start [0xB0]) = .next t ∧ t.events = (start [0xB0]).events ++
      [.partialRecord (recordL2 0 11 0 .popq none), .terminal (.memoryAccessError 0 2 1)] :=
  ⟨exists_next (by decide), exists_next (by decide)⟩

/-- The header bytes of the clauses, the first and the last illegal function code. -/
theorem witness_HaltNopSteps :
    (start [0x00]).Ready ∧ (start [0x00]).stream.byteAt? (start [0x00]).pc.toNat = some 0x00 ∧
    (start [0x10]).Ready ∧ (start [0x10]).stream.byteAt? (start [0x10]).pc.toNat = some 0x10 ∧
    (start [0x01]).stream.byteAt? (start [0x01]).pc.toNat = some 0x01 ∧ highNibble 0x01 = 0 ∧ 1 ≤ (lowNibble 0x01).toNat ∧
    (start [0x1F]).stream.byteAt? (start [0x1F]).pc.toNat = some 0x1F ∧ highNibble 0x1F = 1 ∧ 1 ≤ (lowNibble 0x1F).toNat :=
  ⟨start_ready _ _, by decide, start_ready _ _, by decide, by decide, by decide, by decide, by decide, by decide, by decide⟩

theorem witness_RetSteps :
    (start [0x90]).Ready ∧ (start [0x90]).stream.byteAt? (start [0x90]).pc.toNat = some 0x90 ∧
    (start [0x91]).stream.byteAt? (start [0x91]).pc.toNat = some 0x91 ∧ highNibble 0x91 = 9 ∧ 1 ≤ (lowNibble 0x91).toNat :=
  ⟨start_ready _ _, by decide, by decide, by decide, by decide⟩

theorem witness_RegisterMoveSteps :
    (start [0x26, 0xE0]).Ready ∧ (start [0x26, 0xE0]).stream.byteAt? (start [0x26, 0xE0]).pc.toNat = some 0x26 ∧
    2 ≤ (start [0x26, 0xE0]).bytesLeft ∧ (start [0x20]).bytesLeft = 1 ∧
    highNibble 0x27 = 2 ∧ 7 ≤ (lowNibble 0x27).toNat ∧ highNibble 0x2F = 2 ∧ 7 ≤ (lowNibble 0x2F).toNat :=
  ⟨start_ready _ _, by decide, by decide, by decide, by decide, by decide, by decide, by decide⟩

theorem witness_ArithmeticSteps :
    (start [0x65, 0x8F]).Ready ∧ (start [0x65, 0x8F]).stream.byteAt? (start [0x65, 0x8F]).pc.toNat = some 0x65 ∧
    2 ≤ (start [0x65, 0x8F]).bytesLeft ∧ (start [0x66]).bytesLeft = 1 ∧
    highNibble 0x67 = 6 ∧ 7 ≤ (lowNibble 0x67).toNat ∧ highNibble 0x6F = 6 ∧ 7 ≤ (lowNibble 0x6F).toNat :=
  ⟨start_ready _ _, by decide, by decide, by decide, by decide, by decide, by decide, by decide⟩

theorem witness_PushPopSteps :
    (start [0xA0, 0x5F]).Ready ∧ (start [0xA0, 0x5F]).stream.byteAt? (start [0xA0, 0x5F]).pc.toNat = some 0xA0 ∧
    2 ≤ (start [0xB0, 0x3F]).bytesLeft ∧ (start [0xB0]).bytesLeft = 1 ∧
    highNibble 0xA1 = 10 ∧ 1 ≤ (lowNibble 0xA1).toNat ∧ highNibble 0xBF = 11 ∧ 1 ≤ (lowNibble 0xBF).toNat :=
  ⟨start_ready _ _, by decide, by decide, by decide, by decide, by decide, by decide, by decide⟩

/-- Nine bytes left, eight and one. -/
theorem witness_JumpSteps :
    (start [0x70, 1, 2, 3, 4, 5, 6, 7, 8]).Ready ∧ 9 ≤ (start [0x70, 1, 2, 3, 4, 5, 6, 7, 8]).bytesLeft ∧
    (start [0x70, 1, 2, 3, 4, 5, 6, 7]).bytesLeft = 8 ∧ (start [0x76]).bytesLeft = 1 ∧
    (start [0x76]).stream.byteAt? (start [0x76]).pc.toNat = some 0x76 ∧
    highNibble 0x77 = 7 ∧ 7 ≤ (lowNibble 0x77).toNat :=
  ⟨start_ready _ _, by decide, by decide, by decide, by decide, by decide, by decide⟩

theorem witness_CallSteps :
    (start [0x80, 1, 2, 3, 4, 5, 6, 7, 8]).Ready ∧ 9 ≤ (start [0x80, 1, 2, 3, 4, 5, 6, 7, 8]).bytesLeft ∧
    (start [0x80, 1, 2, 3, 4, 5, 6, 7]).bytesLeft = 8 ∧ (start [0x80]).bytesLeft = 1 ∧
    (start [0x80]).stream.byteAt? (start [0x80]).pc.toNat = some 0x80 ∧
    highNibble 0x81 = 8 ∧ 1 ≤ (lowNibble 0x81).toNat :=
  ⟨start_ready _ _, by decide, by decide, by decide, by decide, by decide, by decide⟩

/-- Ten bytes left, nine, two and one. -/
theorem witness_IrmovqSteps :
    (start [0x30, 0xF6, 1, 0, 0, 0, 0, 0, 0, 0]).Ready ∧ 10 ≤ (start [0x30, 0xF6, 1, 0, 0, 0, 0, 0, 0, 0]).bytesLeft ∧
    (start [0x30, 0xF6, 1, 0, 0, 0, 0, 0, 0]).bytesLeft = 9 ∧ (start [0x30, 0xF6]).bytesLeft = 2 ∧
    (start [0x30, 0xF6]).stream.byteAt? ((start [0x30, 0xF6]).pc.toNat + 1) = some 0xF6 ∧
    (start [0x30]).bytesLeft = 1 ∧ (start [0x30]).stream.byteAt? (start [0x30]).pc.toNat = some 0x30 ∧
    highNibble 0x31 = 3 ∧ 1 ≤ (lowNibble 0x31).toNat :=
  ⟨start_ready _ _, by decide, by decide, by decide, by decide, by decide, by decide, by decide, by decide⟩

theorem witness_RmmovqMrmovqSteps :
    (start [0x40, 0x27, 1, 0, 0, 0, 0, 0, 0, 0]).Ready ∧ 10 ≤ (start [0x40, 0x27, 1, 0, 0, 0, 0, 0, 0, 0]).bytesLeft ∧
    (start [0x50, 0x27, 1, 0, 0, 0, 0, 0, 0]).bytesLeft = 9 ∧ (start [0x50, 0x27]).bytesLeft = 2 ∧
    (start [0x50, 0x27]).stream.byteAt? ((start [0x50, 0x27]).pc.toNat + 1) = some 0x27 ∧
    (start [0x40]).bytesLeft = 1 ∧ (start [0x40]).stream.byteAt? (start [0x40]).pc.toNat = some 0x40 ∧
    highNibble 0x4F = 4 ∧ 1 ≤ (lowNibble 0x4F).toNat ∧ highNibble 0x51 = 5 ∧ 1 ≤ (lowNibble 0x51).toNat :=
  ⟨start_ready _ _, by decide, by decide, by decide, by decide, by decide, by decide, by decide, by decide, by decide,
    by decide⟩

theorem witness_ExecCompletesLengthOne : State.reset.status = .run := by decide

theorem witness_ExecCompletesLengthTwo : (start [0x20, 0xFF]).status = .run := by decide

theorem witness_ExecCompletesLengthNine :
    State.reset.status = .run ∧ ([1, 2, 3, 4, 5, 6, 7, 8] : List Byte).length = 8 := by decide

theorem witness_ExecCompletesLengthTen :
    State.reset.status = .run ∧ ([1, 2, 3, 4, 5, 6, 7, 8] : List Byte).length = 8 := by decide

/-- An instruction in full and one cut short. -/
theorem witness_ExecFrame :
    (∃ t, exec (.xorq (some ⟨0, 0⟩)) State.reset = .next t ∧ t.pc = 2) ∧ (Instr.xorq (some ⟨0, 0⟩)).complete = true ∧
    (∃ t, exec (.xorq none) State.reset = .next t ∧ t.pc = 0) ∧
    (Instr.xorq none).WellFormed = true ∧ (Instr.xorq none).complete = false :=
  ⟨exists_next (by decide), by decide, exists_next (by decide), by decide, by decide⟩

theorem witness_IncompleteInstructionRaisesMemoryAccessError :
    State.reset.status = .run ∧ (Instr.mrmovq (some ⟨3, 4⟩) [1, 2, 3, 4, 5, 6, 7]).WellFormed = true ∧
    (Instr.mrmovq (some ⟨3, 4⟩) [1, 2, 3, 4, 5, 6, 7]).complete = false := by decide

/-- At N, beyond N, and the empty stream. -/
theorem witness_EndOfStreamEntry :
    (start [0x10] 1).Ready ∧ (start [0x10] 1).stream.size.val ≤ (start [0x10] 1).pc.toNat ∧
    (start [0x10] 5).stream.size.val ≤ (start [0x10] 5).pc.toNat ∧ (Memory.ofBytes []).size.val = 0 :=
  ⟨start_ready _ _, by decide, by decide, by decide⟩

theorem witness_InvalidOpcodeEntry :
    (start [0xC0]).Ready ∧ (start [0xC0]).stream.byteAt? (start [0xC0]).pc.toNat = some 0xC0 ∧
    12 ≤ (highNibble 0xC0).toNat ∧ 12 ≤ (highNibble 0xFF).toNat :=
  ⟨start_ready _ _, by decide, by decide, by decide⟩

/-- The least illegal function code of an opcode with seven variants and of one with a single form. -/
theorem witness_InvalidFunctionCodeEntry :
    (start [0x67]).Ready ∧ (start [0x67]).stream.byteAt? (start [0x67]).pc.toNat = some 0x67 ∧ FunctionIllegal 0x67 ∧
    (start [0xB1]).Ready ∧ (start [0xB1]).stream.byteAt? (start [0xB1]).pc.toNat = some 0xB1 ∧ FunctionIllegal 0xB1 :=
  ⟨start_ready _ _, by decide, by unfold FunctionIllegal; decide, start_ready _ _, by decide,
    by unfold FunctionIllegal; decide⟩

theorem witness_OutcomeByBytesLeft :
    (start [0x50]).Ready ∧ (start [0x50]).stream.byteAt? (start [0x50]).pc.toNat = some 0x50 ∧
    classify 0x50 = .legal .mrmovq 0 .mrmovq ∧ (start [0x50]).bytesLeft < Opcode.mrmovq.len ∧
    ¬ (start [0x50, 0, 0, 0, 0, 0, 0, 0, 0, 0]).bytesLeft < Opcode.mrmovq.len :=
  ⟨start_ready _ _, by decide, by decide, by decide, by decide⟩

theorem witness_TerminalStatusRedelivers : ∀ a, (inStatus a).resetDone = true ∧ (inStatus a).status = a :=
  fun _ => ⟨rfl, rfl⟩

theorem witness_RedeliveredOutcomeEndedTheRun :
    (start [0x30, 0xF6, 0x01]).resetDone = true ∧ (start [0x30, 0xF6, 0x01]).status = .run ∧
    ∃ t, step (start [0x30, 0xF6, 0x01]) = .next t ∧ t.RunOver ∧ ∃ u, step t = .next u := by
  obtain ⟨t, ht, h⟩ : ∃ t, step (start [0x30, 0xF6, 0x01]) = .next t ∧ t.status = .errMemory := exists_next (by decide)
  have hd : t.resetDone = true := by
    obtain ⟨t', ht', h'⟩ : ∃ t, step (start [0x30, 0xF6, 0x01]) = .next t ∧ t.resetDone = true := exists_next (by decide)
    rw [ht] at ht'; cases ht'; exact h'
  obtain ⟨u, hu, -⟩ := step_total t hd
  exact ⟨rfl, rfl, t, ht, by simp [State.RunOver, h], u, hu⟩

theorem witness_TerminalStatusStays : ∀ a, a ≠ .run → (inStatus a).resetDone = true ∧ (inStatus a).RunOver :=
  fun _ h => ⟨rfl, h⟩

theorem witness_StatusCodes : Status.code .errMemory = Status.code .errMemory := rfl

/-- A step refused, and a step in a terminal status. -/
theorem witness_StepRefusedBeforeReset : unreset.resetDone = false ∧
    (∃ t, serve (inStatus .ended) .decodeStep = .next t ∧ t.status = .ended) ∧ (inStatus .ended).status ≠ .run :=
  ⟨rfl, exists_next (by decide), by decide⟩

theorem witness_ResetHasTheInvariant : (Memory.ofBytes [0x30, 0x00, 0x01]).wf = true := by decide

/-- A running state, and one about to end in an error. -/
theorem witness_StepKeepsTheInvariant :
    State.reset.Inv ∧ (start [0x30, 0xF6]).Inv ∧ ∃ t, step (start [0x30, 0xF6]) = .next t ∧ t.status = .errMemory :=
  ⟨⟨rfl, rfl, by intro e he; cases he⟩, ⟨by decide, rfl, by intro e he; cases he⟩, exists_next (by decide)⟩

/-- START at N, on the empty stream and on another. -/
theorem witness_RunDeliversTilingRecordsThenOneTerminal :
    (Memory.ofBytes []).size.val ≤ ((none : Option Word).getD 0).toNat ∧
    (Memory.ofBytes [0x10]).size.val ≤ ((some 1 : Option Word).getD 0).toNat := by decide

end Sys2Proof.Tests
end

/-! # Proofs: StreamRead (20_memory.md R33) -/

namespace Sys2Proof.Machine

/-! ## What one read obtains -/

section streamRead
variable (n k : Nat) (s : State)

@[simp] theorem streamRead_count : (streamRead n s).1 = s.stream.available s.cur.toNat n := rfl

@[simp] theorem streamRead_bytes : (streamRead n s).2.1 = s.stream.readPrefix s.cur.toNat n := rfl

@[simp] theorem streamRead_state :
    (streamRead n s).2.2 = s.consume (s.stream.available s.cur.toNat n) := rfl

/-- A read holds the source's byte at each place it reaches. -/
theorem Memory.readPrefix_getElem? (m : Memory) (a n : Nat) {j : Nat} (h : j < m.available a n) :
    (m.readPrefix a n)[j]? = m.byteAt? (a + j) := by
  have hlt : a + j < m.size.val := by unfold Memory.available at h; omega
  rw [Memory.byteAt_of_lt hlt]
  exact Memory.memRead_getElem? m a _ j h

/-- The cursor never wraps: what is available ends at N at most, and `N < 2^64` (00_scope.md R7). -/
theorem State.consume_available_cur_toNat :
    (s.consume (s.stream.available s.cur.toNat n)).cur.toNat =
      s.cur.toNat + s.stream.available s.cur.toNat n := by
  have hcur := s.cur.isLt
  have hsize := s.stream.size.isLt
  have hfit : s.cur.toNat + s.stream.available s.cur.toNat n < 2 ^ 64 := by
    unfold Memory.available; omega
  rw [State.consume_cur, BitVec.toNat_add, BitVec.toNat_ofNat, Nat.add_mod_mod, Nat.mod_eq_of_lt hfit]

/-- A short read exhausts the source: the cursor then stands at N, or it stood at or past N and obtained nothing. -/
theorem streamRead_short (h : (streamRead n s).1 < n) :
    s.stream.size.val ≤ (streamRead n s).2.2.cur.toNat ∧
      ((streamRead n s).1 ≠ 0 → (streamRead n s).2.2.cur.toNat = s.stream.size.val) := by
  rw [streamRead_state, State.consume_available_cur_toNat]
  simp only [streamRead_count, Memory.available] at h ⊢
  omega

/-! ## A read as several smaller reads -/

theorem Memory.available_add (m : Memory) (a k n : Nat) :
    m.available a (k + n) = m.available a k + m.available (a + m.available a k) n := by
  unfold Memory.available; omega

theorem State.consume_add : s.consume (k + n) = (s.consume k).consume n := by
  simp [State.consume, BitVec.ofNat_add, BitVec.add_assoc]

/-- A read of `k + n` bytes is a read of `k` and then one of `n` from where the first left the cursor. -/
theorem streamRead_add :
    (streamRead (k + n) s).2 =
      ((streamRead k s).2.1 ++ (streamRead n (streamRead k s).2.2).2.1,
        (streamRead n (streamRead k s).2.2).2.2) := by
  have hcur := State.consume_available_cur_toNat k s
  refine Prod.ext ?_ ?_
  · simp only [streamRead_bytes, streamRead_state, hcur, State.consume_stream, Memory.readPrefix,
      Memory.available_add, Memory.memRead_add]
  · simp only [streamRead_state, hcur, State.consume_stream, Memory.available_add, State.consume_add]

end streamRead

/-- Appends what one further 1-byte read obtains to the bytes read so far. -/
def readOneMore (p : List Byte × State) : List Byte × State :=
  (p.1 ++ (streamRead 1 p.2).2.1, (streamRead 1 p.2).2.2)

theorem streamRead_eq_iterate_readOneMore (n : Nat) (s : State) :
    (streamRead n s).2 = readOneMore^[n] ([], s) := by
  induction n with
  | zero => simp [streamRead, Memory.available, Memory.memRead]
  | succ n ih => rw [Function.iterate_succ_apply', ← ih, streamRead_add]; rfl

/-- Settles O10: the count, the bytes and the state are `streamRead`'s equations, a short read is `streamRead_short`, and
eight 1-byte reads are `streamRead_add` iterated. -/
theorem streamReadDeliversLongestPrefix : Obligations.StreamReadDeliversLongestPrefix := by
  unfold Obligations.StreamReadDeliversLongestPrefix
  refine ⟨fun s n => ⟨rfl, ?_, ?_, rfl, streamRead_short n s⟩, streamRead_eq_iterate_readOneMore 8⟩
  · exact Memory.memRead_length _ _ _
  · exact fun j hj => Memory.readPrefix_getElem? s.stream s.cur.toNat n hj

end Sys2Proof.Machine

/-! # Proofs: the operand extractors and redelivery (40_decode_step.md R86, R90, R102) -/

namespace Sys2Proof.Machine

/-! ## The immediate's value (R90) -/

section immValue
variable (b : Byte) (m : List Byte)

@[simp] theorem immValue_nil : immValue [] = 0 := rfl

theorem immValue_cons : immValue (b :: m) = BitVec.setWidth 64 b ||| immValue m <<< 8 := rfl

/-- The rule's OR from place `k` on, gathered in `acc`: what is left to gather is the value of the bytes left, moved up
to place `k`. -/
theorem foldl_or_places (acc : Word) (k : Nat) :
    (m.zipIdx k).foldl (fun v bj => v ||| BitVec.setWidth 64 bj.1 <<< (8 * bj.2)) acc =
      acc ||| immValue m <<< (8 * k) := by
  induction m generalizing acc k with
  | nil => simp
  | cons b rest ih =>
    rw [List.zipIdx_cons, List.foldl_cons, ih, immValue_cons, BitVec.shiftLeft_or_distrib, ← BitVec.shiftLeft_add,
      BitVec.or_assoc, show 8 + 8 * k = 8 * (k + 1) by omega]

theorem immValue_eq_pseudo : immValue m = Pseudo.immValue m := by
  rw [Pseudo.immValue, List.foldl_map, foldl_or_places]
  simp

/-- Bit `n` of the value is bit `n % 8` of byte `n / 8`, of a zero byte where there is none. -/
theorem immValue_getLsbD {n : Nat} (hn : n < 64) :
    (immValue m).getLsbD n = (m[n / 8]?.getD 0).getLsbD (n % 8) := by
  induction m generalizing n with
  | nil => simp
  | cons b rest ih =>
    rw [immValue_cons, BitVec.getLsbD_or, BitVec.getLsbD_setWidth, BitVec.getLsbD_shiftLeft]
    by_cases h8 : n < 8
    · simp [h8, hn, Nat.div_eq_of_lt, Nat.mod_eq_of_lt]
    · have hdiv : n / 8 = (n - 8) / 8 + 1 := by omega
      have hmod : n % 8 = (n - 8) % 8 := by omega
      rw [ih (by omega), hdiv, hmod, List.getElem?_cons_succ, BitVec.getLsbD_of_ge b n (by omega)]
      simp [h8, hn]

variable {m}

/-- Digits in base `2^8`, so that `k` of them stay below `2^(8k)`. -/
theorem ofDigits_bytes_lt : Nat.ofDigits (2 ^ 8) (m.map BitVec.toNat) < 2 ^ (8 * m.length) := by
  have h := Nat.ofDigits_lt_base_pow_length (b := 2 ^ 8) (l := m.map BitVec.toNat) (by decide) (by
    intro x hx
    obtain ⟨b, -, rfl⟩ := List.mem_map.1 hx
    exact b.isLt)
  rwa [List.length_map, ← Nat.pow_mul] at h

/-- Eight bytes fit in the word: the OR at disjoint places is a sum, and it does not overflow. -/
theorem immValue_toNat (h : m.length ≤ 8) :
    (immValue m).toNat = Nat.ofDigits (2 ^ 8) (m.map BitVec.toNat) := by
  induction m with
  | nil => rfl
  | cons b rest ih =>
    rw [List.length_cons] at h
    have hrest := ih (by omega)
    have hfit : (immValue rest).toNat < 2 ^ 56 := calc
      (immValue rest).toNat = Nat.ofDigits (2 ^ 8) (rest.map BitVec.toNat) := hrest
      _ < 2 ^ (8 * rest.length) := ofDigits_bytes_lt
      _ ≤ 2 ^ 56 := Nat.pow_le_pow_right (by decide) (by omega)
    have hshift : (immValue rest <<< 8).toNat = 2 ^ 8 * (immValue rest).toNat := by
      rw [BitVec.toNat_shiftLeft, Nat.shiftLeft_eq, Nat.mul_comm, Nat.mod_eq_of_lt (by omega)]
    rw [immValue_cons, BitVec.toNat_or, hshift, BitVec.toNat_setWidth_of_le (by decide), Nat.or_comm,
      ← Nat.two_pow_add_eq_or_of_lt b.isLt, Nat.add_comm, hrest, List.map_cons, Nat.ofDigits_cons]

theorem immValue_byte {j : Nat} {b : Byte} (h : m.length ≤ 8) (hj : m[j]? = some b) :
    (immValue m).extractLsb' (8 * j) 8 = b := by
  obtain ⟨hlt, -⟩ := List.getElem?_eq_some_iff.1 hj
  refine BitVec.eq_of_getLsbD_eq fun i hi => ?_
  rw [BitVec.getLsbD_extractLsb', immValue_getLsbD m (by omega), show (8 * j + i) / 8 = j by omega,
    show (8 * j + i) % 8 = i by omega, hj]
  simp [hi]

theorem immValue_getLsbD_above {n : Nat} (hn : 8 * m.length ≤ n) : (immValue m).getLsbD n = false := by
  by_cases h64 : n < 64
  · rw [immValue_getLsbD m h64, List.getElem?_eq_none (by omega)]
    simp
  · exact BitVec.getLsbD_of_ge _ _ (by omega)

end immValue

/-- Settles O7: the OR form is `foldl_or_places` at place 0, the sum is `immValue_toNat`, and the bits are
`immValue_getLsbD`. -/
theorem immediateIsLittleEndianWithZeroFill : Obligations.ImmediateIsLittleEndianWithZeroFill := by
  unfold Obligations.ImmediateIsLittleEndianWithZeroFill
  refine ⟨fun m h => ⟨immValue_eq_pseudo m, ?_, fun j b => immValue_byte h, fun n => immValue_getLsbD_above⟩,
    by decide, by decide⟩
  rw [immValue_toNat h, Nat.ofDigits_eq_foldr, List.foldr_map]
  rfl

/-! ## The register specifiers (R86) -/

theorem highNibble_toNat (b : Byte) : (highNibble b).toNat = b.toNat / 16 := by
  rw [highNibble, BitVec.extractLsb'_toNat, Nat.shiftRight_eq_div_pow]
  omega

theorem lowNibble_toNat (b : Byte) : (lowNibble b).toNat = b.toNat % 16 := by
  rw [lowNibble, BitVec.extractLsb'_toNat, Nat.shiftRight_zero]

/-- Settles O6: `splitRegs` takes the high and the low nibble. -/
theorem splitRegsTakesTheNibbles : Obligations.SplitRegsTakesTheNibbles := by
  unfold Obligations.SplitRegsTakesTheNibbles
  exact ⟨fun b => ⟨highNibble_toNat b, lowNibble_toNat b⟩, by decide⟩

/-! ## The latched outcome by terminal status (R102) -/

section latched
variable {s : State}

theorem State.latched_of_ended (h : s.status = .ended) : s.latched? = some .endOfStream := by
  rw [State.latched?, h]

theorem State.latched_of_errOpcode (h : s.status = .errOpcode) :
    s.latched? = some (.invalidOpcode s.errVal s.errPc) := by
  rw [State.latched?, h]

theorem State.latched_of_errFunction (h : s.status = .errFunction) :
    s.latched? = some (.invalidFunctionCode s.errVal s.errPc) := by
  rw [State.latched?, h]

theorem State.latched_of_errMemory (h : s.status = .errMemory) :
    s.latched? = some (.memoryAccessError s.errPc s.errLen s.errCnt) := by
  rw [State.latched?, h]

end latched

/-- Settles O42: the step delivers what is latched (`step_of_latched`), and the status says what that is. -/
theorem terminalStatusRedelivers : Obligations.TerminalStatusRedelivers := by
  unfold Obligations.TerminalStatusRedelivers
  exact fun s hd => ⟨fun h => step_of_latched hd (State.latched_of_ended h),
    fun h => step_of_latched hd (State.latched_of_errOpcode h),
    fun h => step_of_latched hd (State.latched_of_errFunction h),
    fun h => step_of_latched hd (State.latched_of_errMemory h)⟩

end Sys2Proof.Machine

/-! # Proofs: halt and nop (41_len1_halt_nop_ret.md R120, R121) -/

namespace Sys2Proof.Machine

open Claims

/-! ## The step at an instruction boundary -/

section boundary
variable {s : State} {h : Byte}

/-- The state after a full record is again at a boundary. -/
theorem ready_afterRecord (hs : s.Ready) (len : Nat) (r : DecodedRecord) : (afterRecord s len r).Ready :=
  ⟨hs.resetDone, hs.running, rfl⟩

theorem bytesLeft_pos_of_header (hh : s.stream.byteAt? s.pc.toNat = some h) : 1 ≤ s.bytesLeft := by
  have hlt := (Memory.byteAt_eq_some.1 hh).1
  unfold State.bytesLeft
  omega

theorem step_eq_afterRecord {o : Opcode} {f : Nibble} {mn : Mnemonic} (hs : s.Ready)
    (hh : s.stream.byteAt? s.pc.toNat = some h) (hc : classify h = .legal o f mn) (hl : o.len ≤ s.bytesLeft) :
    step s = .next (afterRecord s o.len (buildRecord s.pc o (highNibble h) f mn (s.regsAt o) (s.immAt o))) := by
  have hcur := hs.atPc
  rw [step_of_full hs.resetDone hs.running (hcur ▸ hh) hc (hcur ▸ hl), State.afterFull, afterRecord, hcur]

theorem step_eq_afterBadFunction {v : Nibble} (hs : s.Ready) (hh : s.stream.byteAt? s.pc.toNat = some h)
    (hc : classify h = .badFunction v) : step s = .next (afterBadFunction s v) := by
  have hcur := hs.atPc
  rw [step_of_badFunction hs.resetDone hs.running (hcur ▸ hh) hc]
  simp [State.raise, State.emit, State.consume, afterBadFunction, hcur]

end boundary

/-- A function code past an opcode's names is illegal (40_decode_step.md R83 to R85). -/
theorem classify_of_names_length_le {h : Byte} {o : Opcode} (ho : Opcode.ofNibble (highNibble h) = some o)
    (hlo : o.names.length ≤ (lowNibble h).toNat) : classify h = .badFunction (lowNibble h) := by
  have hmn : o.mnemonic (lowNibble h) = none := List.getElem?_eq_none hlo
  simp only [classify, ho, hmn]

/-- From the number of its names on, every function code of an opcode raises InvalidFunctionCode (60_exceptions.md
R201). -/
theorem functionCodesIllegalFrom_names_length {icode : Nibble} {o : Opcode} (ho : Opcode.ofNibble icode = some o) :
    FunctionCodesIllegalFrom icode o.names.length := by
  rintro s h hs hh rfl hlo
  exact step_eq_afterBadFunction hs hh (classify_of_names_length_le ho hlo)

/-! ## Format L1 -/

/-- With no operand to read, the record built is that of format L1. -/
theorem buildRecord_of_len_one {o : Opcode} (ho : o.len = 1) (s : State) (icode : Nibble) (mn : Mnemonic) :
    buildRecord s.pc o icode 0 mn (s.regsAt o) (s.immAt o) = recordL1 s.pc icode mn := by
  have hregs : o.needRegs = false := by simp [Opcode.needRegs, ho]
  have himm : o.needImm = false := by simp [Opcode.needImm, ho]
  simp [buildRecord, recordL1, State.regsAt, State.immAt, registersValid, immediateValid, hregs, himm, ho]

/-- A header byte of declared length 1 is the whole instruction, so its step always ends in a full record
(41_len1_halt_nop_ret.md, before R120). -/
theorem stepL1_of_len_one {H : Byte} {o : Opcode} {mn : Mnemonic} (hc : classify H = .legal o 0 mn) (ho : o.len = 1) :
    StepL1 H (highNibble H) mn := by
  intro s hs hh
  have hl : o.len ≤ s.bytesLeft := ho ▸ bytesLeft_pos_of_header hh
  rw [step_eq_afterRecord hs hh hc hl, buildRecord_of_len_one ho, ho]

theorem stepL1_halt : StepL1 0x00 0 .halt := stepL1_of_len_one (classify_header .halt) rfl

theorem stepL1_nop : StepL1 0x10 1 .nop := stepL1_of_len_one (classify_header .nop) rfl

/-- After a step of format L1 the decoder stands, ready, at the byte behind the header. -/
theorem step_ready_of_stepL1 {H : Byte} {icode : Nibble} {mn : Mnemonic} (hstep : StepL1 H icode mn) {s : State}
    (hs : s.Ready) (hh : s.stream.byteAt? s.pc.toNat = some H) :
    ∃ t, step s = .next t ∧ t.Ready ∧ t.pc = s.pc + 1 :=
  ⟨_, hstep s hs hh, ready_afterRecord hs 1 _, rfl⟩

/-- Settles O23: the records are `stepL1_of_len_one` at the two header bytes, the errors
`functionCodesIllegalFrom_names_length` at opcodes with one name, and neither record ends the run
(`step_ready_of_stepL1`). -/
theorem haltNopSteps : Obligations.HaltNopSteps := by
  unfold Obligations.HaltNopSteps
  refine ⟨rfl, rfl, stepL1_halt, stepL1_nop, functionCodesIllegalFrom_names_length (o := .halt) rfl,
    functionCodesIllegalFrom_names_length (o := .nop) rfl, ?_⟩
  rintro s h hs hh (rfl | rfl)
  · exact step_ready_of_stepL1 stepL1_halt hs hh
  · exact step_ready_of_stepL1 stepL1_nop hs hh

end Sys2Proof.Machine

/-! # Proofs: the register moves and the arithmetic (42_len2_rrmovq_opq_push_pop.md R130 to R136, R140 to R146) -/

namespace Sys2Proof.Machine

open Claims

/-! ## The truncated step at an instruction boundary -/

section truncation
variable {s : State} {h : Byte}

/-- What is left reaches from `pc` to N, so the cursor past it stands at N. -/
theorem pc_add_bytesLeft (hh : s.stream.byteAt? s.pc.toNat = some h) :
    s.pc + BitVec.ofNat 64 s.bytesLeft = BitVec.ofNat 64 s.stream.size.val := by
  have hsize : s.pc.toNat + s.bytesLeft = s.stream.size.val :=
    Nat.add_sub_of_le (Memory.byteAt_eq_some.1 hh).1.le
  rw [← hsize, BitVec.ofNat_add, BitVec.ofNat_toNat, BitVec.setWidth_eq]

theorem step_eq_afterTruncation {o : Opcode} {f : Nibble} {mn : Mnemonic} (hs : s.Ready)
    (hh : s.stream.byteAt? s.pc.toNat = some h) (hc : classify h = .legal o f mn) (hl : s.bytesLeft < o.len) :
    step s = .next (afterTruncation s o.len s.bytesLeft
      (buildRecord s.pc o (highNibble h) f mn (s.regsAt o) (s.immAt o))) := by
  have hcur := hs.atPc
  rw [step_of_short hs.resetDone hs.running (hcur ▸ hh) hc (hcur ▸ hl), State.afterShort, afterTruncation,
    ← pc_add_bytesLeft hh, hcur]
  rfl

end truncation

/-! ## Format L2 -/

/-- With a register byte and no immediate to read, the record built is that of format L2. -/
theorem buildRecord_of_len_two {o : Opcode} (ho : o.len = 2) (s : State) (icode ifun : Nibble) (mn : Mnemonic) :
    buildRecord s.pc o icode ifun mn (s.regsAt o) (s.immAt o) =
      recordL2 s.pc icode ifun mn ((s.stream.byteAt? (s.cur.toNat + 1)).map splitRegs) := by
  have hregs : o.needRegs = true := by simp [Opcode.needRegs, ho]
  have himm : o.needImm = false := by simp [Opcode.needImm, ho]
  simp [buildRecord, recordL2, State.regsAt, State.immAt, registersValid, immediateValid, hregs, himm, ho]

/-- The common step of format L2: the byte behind the header decides between the full record and the truncation
(42_len2_rrmovq_opq_push_pop.md R129). -/
theorem stepL2_of_len_two {H : Byte} {o : Opcode} {f : Nibble} {mn : Mnemonic} (hc : classify H = .legal o f mn)
    (ho : o.len = 2) : StepL2 H (highNibble H) f mn := by
  intro s hs hh
  refine ⟨fun b hl hb => ?_, fun hl => ?_⟩
  · rw [step_eq_afterRecord hs hh hc (ho ▸ hl), buildRecord_of_len_two ho, ho, hs.atPc, hb]
    rfl
  · have hnone : s.stream.byteAt? (s.pc.toNat + 1) = none :=
      Memory.byteAt_eq_none.2 (by unfold State.bytesLeft at hl; omega)
    rw [step_eq_afterTruncation hs hh hc (by omega), buildRecord_of_len_two ho, ho, hl, hs.atPc, hnone]
    rfl

/-- Every mnemonic of declared length 2 takes the common step of format L2 at its own header byte. -/
theorem stepL2_header (mn : Mnemonic) (ho : mn.opcode.len = 2) :
    StepL2 mn.header (highNibble mn.header) (lowNibble mn.header) mn :=
  stepL2_of_len_two (classify_header mn) ho

/-- Settles O25: the seven steps are `stepL2_header`, the errors `functionCodesIllegalFrom_names_length` at an opcode
with seven names. -/
theorem registerMoveSteps : Obligations.RegisterMoveSteps := by
  unfold Obligations.RegisterMoveSteps
  exact ⟨stepL2_header .rrmovq rfl, stepL2_header .cmovle rfl, stepL2_header .cmovl rfl, stepL2_header .cmove rfl,
    stepL2_header .cmovne rfl, stepL2_header .cmovge rfl, stepL2_header .cmovg rfl,
    functionCodesIllegalFrom_names_length (o := .regMove) rfl⟩

/-- Settles O26: the seven steps are `stepL2_header`, the errors `functionCodesIllegalFrom_names_length` at an opcode
with seven names. -/
theorem arithmeticSteps : Obligations.ArithmeticSteps := by
  unfold Obligations.ArithmeticSteps
  exact ⟨stepL2_header .addq rfl, stepL2_header .subq rfl, stepL2_header .andq rfl, stepL2_header .xorq rfl,
    stepL2_header .mulq rfl, stepL2_header .divq rfl, stepL2_header .modq rfl,
    functionCodesIllegalFrom_names_length (o := .opq) rfl⟩

end Sys2Proof.Machine

/-! # Proofs: the jumps (43_len9_jxx_call.md R160 to R166) -/

namespace Sys2Proof.Machine

open Claims

/-! ## Format L9 -/

/-- A read behind the header obtains what is left after the header byte, at most what it asks for (20_memory.md R33). -/
theorem readPrefix_behind_header (s : State) (n : Nat) :
    s.stream.readPrefix (s.pc.toNat + 1) n = s.stream.memRead (s.pc.toNat + 1) (min n (s.bytesLeft - 1)) := by
  rw [Memory.readPrefix, Memory.available, State.bytesLeft, Nat.sub_sub]

/-- With an immediate and no register byte to read, the record built is that of format L9. -/
theorem buildRecord_of_len_nine {o : Opcode} (ho : o.len = 9) (s : State) (icode ifun : Nibble) (mn : Mnemonic) :
    buildRecord s.pc o icode ifun mn (s.regsAt o) (s.immAt o) =
      recordL9 s.pc icode ifun mn (s.stream.readPrefix (s.cur.toNat + 1) 8) := by
  have hregs : o.needRegs = false := by simp [Opcode.needRegs, ho]
  have himm : o.needImm = true := by simp [Opcode.needImm, ho]
  simp [buildRecord, recordL9, State.regsAt, State.immAt, registersValid, immediateValid, hregs, himm, ho]

/-- The common step of format L9: the immediate's eight bytes in full, or the fewer that are left behind the header
(43_len9_jxx_call.md R159). -/
theorem stepL9_of_len_nine {H : Byte} {o : Opcode} {f : Nibble} {mn : Mnemonic} (hc : classify H = .legal o f mn)
    (ho : o.len = 9) : StepL9 H (highNibble H) f mn := by
  intro s hs hh
  refine ⟨fun hl => ?_, fun _ hl => ?_⟩
  · have hall : min 8 (s.bytesLeft - 1) = 8 := by omega
    rw [step_eq_afterRecord hs hh hc (ho ▸ hl), buildRecord_of_len_nine ho, ho, hs.atPc, readPrefix_behind_header, hall]
  · have hrest : min 8 (s.bytesLeft - 1) = s.bytesLeft - 1 := by omega
    rw [step_eq_afterTruncation hs hh hc (by omega), buildRecord_of_len_nine ho, ho, hs.atPc, readPrefix_behind_header,
      hrest]

/-- Every mnemonic of declared length 9 takes the common step of format L9 at its own header byte. -/
theorem stepL9_header (mn : Mnemonic) (ho : mn.opcode.len = 9) :
    StepL9 mn.header (highNibble mn.header) (lowNibble mn.header) mn :=
  stepL9_of_len_nine (classify_header mn) ho

/-- Settles O28: the seven steps are `stepL9_header`, the errors `functionCodesIllegalFrom_names_length` at an opcode
with seven names. -/
theorem jumpSteps : Obligations.JumpSteps := by
  unfold Obligations.JumpSteps
  exact ⟨stepL9_header .jmp rfl, stepL9_header .jle rfl, stepL9_header .jl rfl, stepL9_header .je rfl,
    stepL9_header .jne rfl, stepL9_header .jge rfl, stepL9_header .jg rfl,
    functionCodesIllegalFrom_names_length (o := .jxx) rfl⟩

end Sys2Proof.Machine

/-! # Proofs: irmovq (44_len10_irmovq_rmmovq_mrmovq.md R181) -/

namespace Sys2Proof.Machine

open Claims

/-! ## Format L10 -/

/-- A read behind the register byte obtains what is left after the header and register bytes, at most what it asks for
(20_memory.md R33). -/
theorem readPrefix_behind_registers (s : State) (n : Nat) :
    s.stream.readPrefix (s.pc.toNat + 2) n = s.stream.memRead (s.pc.toNat + 2) (min n (s.bytesLeft - 2)) := by
  rw [Memory.readPrefix, Memory.available, State.bytesLeft, Nat.sub_sub]

/-- With a register byte and an immediate to read, the record built is that of format L10. -/
theorem buildRecord_of_len_ten {o : Opcode} (ho : o.len = 10) (s : State) (icode : Nibble) (mn : Mnemonic) :
    buildRecord s.pc o icode 0 mn (s.regsAt o) (s.immAt o) =
      recordL10 s.pc icode mn ((s.stream.byteAt? (s.cur.toNat + 1)).map splitRegs)
        (s.stream.readPrefix (s.cur.toNat + 2) 8) := by
  have hregs : o.needRegs = true := by simp [Opcode.needRegs, ho]
  have himm : o.needImm = true := by simp [Opcode.needImm, ho]
  simp [buildRecord, recordL10, State.regsAt, State.immAt, registersValid, immediateValid, hregs, himm, ho]

/-- The common step of format L10: both operands in full, the register byte and the fewer immediate bytes that are left
behind it, or neither (44_len10_irmovq_rmmovq_mrmovq.md R180). -/
theorem stepL10_of_len_ten {H : Byte} {o : Opcode} {mn : Mnemonic} (hc : classify H = .legal o 0 mn)
    (ho : o.len = 10) : StepL10 H (highNibble H) mn := by
  intro s hs hh
  refine ⟨fun b hl hb => ?_, fun b _ hl hb => ?_, fun hl => ?_⟩
  · have hall : min 8 (s.bytesLeft - 2) = 8 := by omega
    rw [step_eq_afterRecord hs hh hc (ho ▸ hl), buildRecord_of_len_ten ho, ho, hs.atPc, hb,
      readPrefix_behind_registers, hall]
    rfl
  · have hrest : min 8 (s.bytesLeft - 2) = s.bytesLeft - 2 := by omega
    rw [step_eq_afterTruncation hs hh hc (by omega), buildRecord_of_len_ten ho, ho, hs.atPc, hb,
      readPrefix_behind_registers, hrest]
    rfl
  · have hnone : s.stream.byteAt? (s.pc.toNat + 1) = none :=
      Memory.byteAt_eq_none.2 (by unfold State.bytesLeft at hl; omega)
    rw [step_eq_afterTruncation hs hh hc (by omega), buildRecord_of_len_ten ho, ho, hs.atPc, hnone,
      readPrefix_behind_registers, hl]
    rfl

/-- Settles O30: the step is `stepL10_of_len_ten` at irmovq's header byte, the errors
`functionCodesIllegalFrom_names_length` at an opcode with one name. -/
theorem irmovqSteps : Obligations.IrmovqSteps := by
  unfold Obligations.IrmovqSteps
  exact ⟨stepL10_of_len_ten (classify_header .irmovq) rfl, functionCodesIllegalFrom_names_length (o := .irmovq) rfl⟩

end Sys2Proof.Machine

/-! # Proofs: the terminal outcomes and their permanence (60_exceptions.md R200, R201, R203, R210) -/

namespace Sys2Proof.Machine

open Claims

/-! ## End-of-stream (R203) -/

theorem step_eq_endOfStream {s : State} (hs : s.Ready) (hN : s.stream.size.val ≤ s.pc.toNat) :
    step s = .next (s.raise .endOfStream) :=
  step_of_noHeader hs.resetDone hs.running (hs.atPc ▸ Memory.byteAt_eq_none.2 hN)

theorem ready_resetWith (stream : Memory) (start : Option Word) : (resetWith stream start).Ready :=
  ⟨rfl, rfl, rfl⟩

/-- Settles O38: the header read obtains nothing (`step_eq_endOfStream`); on the empty stream, at offset 0, already
after Reset. -/
theorem endOfStreamEntry : Obligations.EndOfStreamEntry := by
  unfold Obligations.EndOfStreamEntry
  refine ⟨fun s hs hN => step_eq_endOfStream hs hN, rfl, fun stream hempty => ?_⟩
  exact step_eq_endOfStream (ready_resetWith stream none) (hempty.le.trans (Nat.zero_le _))

/-! ## InvalidOpcode (R200) -/

theorem ofNibble_of_twelve_le : ∀ n : Nibble, 12 ≤ n.toNat → Opcode.ofNibble n = none := by decide

theorem classify_of_twelve_le {h : Byte} (hv : 12 ≤ (highNibble h).toNat) :
    classify h = .badOpcode (highNibble h) := by
  rw [classify, ofNibble_of_twelve_le _ hv]

theorem step_eq_afterBadOpcode {s : State} {h : Byte} {v : Nibble} (hs : s.Ready)
    (hh : s.stream.byteAt? s.pc.toNat = some h) (hc : classify h = .badOpcode v) :
    step s = .next (afterBadOpcode s v) := by
  have hcur := hs.atPc
  rw [step_of_badOpcode hs.resetDone hs.running (hcur ▸ hh) hc]
  simp [State.raise, State.emit, State.consume, afterBadOpcode, hcur]

/-- Settles O39: a high nibble of 12 or more names no opcode (`classify_of_twelve_le`), and it is the header byte's
quotient by 16. -/
theorem invalidOpcodeEntry : Obligations.InvalidOpcodeEntry := by
  unfold Obligations.InvalidOpcodeEntry
  refine ⟨fun s h hs hh hv => step_eq_afterBadOpcode hs hh (classify_of_twelve_le hv), fun h => ?_, rfl⟩
  rw [highNibble_toNat]
  omega

/-! ## InvalidFunctionCode (R201) -/

/-- The opcodes, with how many function codes each takes: seven for 2, 6 and 7, one for every other
(40_decode_step.md R83). -/
theorem ofNibble_map_names_length : ∀ n : Nibble, (Opcode.ofNibble n).map (·.names.length) =
    if n.toNat ≤ 11 then some (if n = 2 ∨ n = 6 ∨ n = 7 then 7 else 1) else none := by
  decide

/-- The rule's test is that the opcode is one and the function code lies past its names. -/
theorem functionIllegal_iff {h : Byte} : FunctionIllegal h ↔
    ∃ o, Opcode.ofNibble (highNibble h) = some o ∧ o.names.length ≤ (lowNibble h).toNat := by
  have hzero : lowNibble h ≠ 0 ↔ 1 ≤ (lowNibble h).toNat := by
    rw [Nat.one_le_iff_ne_zero, ← BitVec.toNat_ne_iff_ne]; rfl
  have hnames : (∃ o, Opcode.ofNibble (highNibble h) = some o ∧ o.names.length ≤ (lowNibble h).toNat) ↔
      ∃ n, (Opcode.ofNibble (highNibble h)).map (·.names.length) = some n ∧ n ≤ (lowNibble h).toNat := by
    simp
  rw [hnames, ofNibble_map_names_length, FunctionIllegal, hzero]
  by_cases hle : (highNibble h).toNat ≤ 11
  · simp only [hle, ite_true, true_and, Option.some.injEq, exists_eq_left']
    split <;> rfl
  · simp [hle]

theorem classify_badFunction_iff {h : Byte} : classify h = .badFunction (lowNibble h) ↔ FunctionIllegal h := by
  rw [functionIllegal_iff]
  constructor
  · intro hc
    obtain ⟨-, o, ho, hm⟩ := classify_badFunction hc
    exact ⟨o, ho, List.getElem?_eq_none_iff.1 hm⟩
  · rintro ⟨o, ho, hlo⟩
    exact classify_of_names_length_le ho hlo

/-- Counting the first `m * n` numbers row by row, `n` in each. -/
theorem countP_range_mul (p : Nat → Bool) (m n : Nat) : (List.range (m * n)).countP p =
    ((List.range m).map fun i => (List.range n).countP fun j => p (i * n + j)).sum := by
  induction m with
  | zero => simp
  | succ m ih =>
    rw [Nat.succ_mul, List.range_add, List.countP_append, List.countP_map, ih, List.range_succ]
    simp [Function.comp_def]

/-- Settles O40: the rule's test is the classifier's (`classify_badFunction_iff`), the classifier's answer is the
step's (`step_eq_afterBadFunction`), and the count goes by the rows of the header grid, one for each high nibble. -/
theorem invalidFunctionCodeEntry : Obligations.InvalidFunctionCodeEntry := by
  unfold Obligations.InvalidFunctionCodeEntry
  refine ⟨fun s h hs hh hf => ?_, fun h => classify_badFunction_iff, ?_, rfl⟩
  · exact step_eq_afterBadFunction hs hh (classify_badFunction_iff.2 hf)
  · exact (countP_range_mul _ 16 16).trans (by decide)

/-! ## No return (R210) -/

/-- A run in a terminal status: every step delivers what is latched and leaves it latched. -/
theorem run_of_latched (k : Nat) {s : State} {τ : Terminal} (hd : s.resetDone = true) (hl : s.latched? = some τ) :
    Sys2Proof.core.run k s = .next { s with events := s.events ++ List.replicate k (.terminal τ) } := by
  induction k generalizing s with
  | zero => rw [run_zero, List.replicate_zero, List.append_nil]
  | succ k ih =>
    rw [run_succ_of_next k (step_of_latched hd hl), ih (s := s.emit (.terminal τ)) hd hl, State.emit_events,
      List.append_assoc, List.singleton_append, ← List.replicate_succ]
    rfl

theorem State.exists_latched_of_runOver {s : State} (h : s.RunOver) : ∃ τ, s.latched? = some τ :=
  Option.ne_none_iff_exists'.1 (mt (State.latched_none_iff s).1 h)

/-- Settles O44: a run that is over has its outcome latched, and `run_of_latched` is the induction over the steps. -/
theorem terminalStatusStays : Obligations.TerminalStatusStays := by
  unfold Obligations.TerminalStatusStays
  intro k s hd hover
  obtain ⟨τ, hl⟩ := State.exists_latched_of_runOver hover
  exact ⟨τ, hl, run_of_latched k hd hl⟩

end Sys2Proof.Machine

/-! # Proofs: Reset and the requests (70_reset_and_hazards.md R230 to R232) -/

namespace Sys2Proof.Machine

/-! ## How a request is served -/

@[simp] theorem serve_reset (s : State) (stream : Memory) (start : Option Word) :
    serve s (.reset stream start) = .next (resetWith stream start) := rfl

@[simp] theorem serve_decodeStep (s : State) : serve s .decodeStep = step s := rfl

/-- Settles O46: what Reset leaves is `resetWith`, at an instruction boundary by `ready_resetWith`. -/
theorem resetBeginsARun : Obligations.ResetBeginsARun := by
  unfold Obligations.ResetBeginsARun
  intro s stream start
  exact ⟨resetWith stream start, serve_reset s stream start, resetWith_pc stream start, resetWith_cur stream start,
    resetWith_status stream start, resetWith_stream stream start, ready_resetWith stream start⟩

/-! ## Reset is the only way out of a terminal status (R231) -/

/-- A run that is over has an outcome latched, and the step that delivers it keeps the status. -/
theorem step_keeps_status_of_runOver {s t : State} (hover : s.RunOver) (h : step s = .next t) :
    t.status = s.status := by
  obtain ⟨hd, -⟩ := step_cases h
  obtain ⟨τ, hl⟩ := State.exists_latched_of_runOver hover
  have ht : s.emit (.terminal τ) = t := Host.Outcome.next.inj ((step_of_latched hd hl).symm.trans h)
  rw [← ht, State.emit_status]

/-- Settles O47: the refusal is `step_of_noReset`, the state after Reset does not name the one before (`serve_reset`),
and a terminal status stays by `step_keeps_status_of_runOver`. -/
theorem stepRefusedBeforeReset : Obligations.StepRefusedBeforeReset := by
  unfold Obligations.StepRefusedBeforeReset
  refine ⟨fun s hd => ?_, fun s s' stream start => ?_, fun s t h hover => ?_⟩
  · rw [serve_decodeStep, step_of_noReset hd]
  · exact ⟨resetWith stream start, serve_reset s stream start, serve_reset s' stream start,
      resetWith_status stream start⟩
  · rw [serve_decodeStep] at h
    exact step_keeps_status_of_runOver hover h

end Sys2Proof.Machine

/-! # Proofs: the round trips of encoder and decoder (30_encoding.md R52; 40_decode_step.md R95 steps 1 to 7) -/

namespace Sys2Proof

open Machine

/-! ## What the operand reads of an opcode can obtain -/

/-- The operands that the reads of an instruction with opcode `o` can obtain, in full or cut short by the end of the
stream (40_decode_step.md R95 steps 6 and 7, R96). -/
structure OperandsFit (o : Opcode) (regs : RegRead) (imm : ImmRead) : Prop where
  noRegs : o.needRegs = false → regs = none
  noImm : o.needImm = false → imm = []
  immLength : imm.length ≤ 8
  immBehindRegs : o.needRegs = true → regs = none → imm = []

theorem operandsFit_iff {o : Opcode} {regs : RegRead} {imm : ImmRead} : OperandsFit o regs imm ↔
    (o.needRegs = false → regs = none) ∧ (o.needImm = false → imm = []) ∧ imm.length ≤ 8 ∧
      (o.needRegs = true → regs = none → imm = []) :=
  ⟨fun h => ⟨h.noRegs, h.noImm, h.immLength, h.immBehindRegs⟩, fun ⟨hr, hm, hl, hb⟩ => ⟨hr, hm, hl, hb⟩⟩

theorem immFits_iff {imm : ImmRead} : immFits imm = true ↔ imm.length ≤ 8 := decide_eq_true_iff

theorem immNeedsRegs_iff {regs : RegRead} {imm : ImmRead} :
    immNeedsRegs regs imm = true ↔ (regs = none → imm = []) := by
  cases regs <;> simp [immNeedsRegs]

/-- The well-formed instructions are those whose operands the reads can obtain. -/
theorem Instr.wellFormed_iff (i : Instr) :
    i.WellFormed = true ↔ OperandsFit i.mnemonic.opcode i.regs i.imm := by
  rw [operandsFit_iff]
  cases i <;> simp [Instr.WellFormed, Instr.mnemonic, Instr.regs, Instr.imm, Mnemonic.opcode, Opcode.needRegs,
    Opcode.needImm, Opcode.len, immFits_iff, immNeedsRegs_iff]

theorem truncated_eq_false_iff {o : Opcode} {regs : RegRead} {imm : ImmRead} : truncated o regs imm = false ↔
    (o.needRegs = true → regs ≠ none) ∧ (o.needImm = true → imm.length = 8) := by
  unfold truncated
  generalize o.needRegs = needR, o.needImm = needI
  cases regs <;> cases needR <;> cases needI <;> simp [registersValid, immediateSufficient, Config.immBytes]

section toInstr
variable {mn : Mnemonic} {regs : RegRead} {imm : ImmRead} (h : OperandsFit mn.opcode regs imm)
include h

theorem OperandsFit.toInstr_regs : (mn.toInstr regs imm).regs = regs := by
  rw [Mnemonic.toInstr_regs]
  cases hneed : mn.opcode.needRegs with
  | false => exact (h.noRegs hneed).symm
  | true => rfl

theorem OperandsFit.toInstr_imm : (mn.toInstr regs imm).imm = imm := by
  rw [Mnemonic.toInstr_imm]
  cases hneed : mn.opcode.needImm with
  | false => exact (h.noImm hneed).symm
  | true => rfl

end toInstr

/-! ## Each operand read against its own bytes -/

section reads
variable (need : Bool) (bytes : List Byte)

theorem encodeRegs_takeRegs : encodeRegs (takeRegs need bytes).1 ++ (takeRegs need bytes).2 = bytes := by
  cases need with
  | false => simp [encodeRegs]
  | true => cases bytes <;> simp [takeRegs, encodeRegs, join_splitRegs]

theorem takeRegs_snd_eq_nil_of_none (hneed : need = true) (h : (takeRegs need bytes).1 = none) :
    (takeRegs need bytes).2 = [] := by
  subst hneed
  cases bytes <;> simp_all [takeRegs]

theorem takeRegs_encodeRegs {need : Bool} {regs : RegRead} {bytes : List Byte} (hskip : need = false → regs = none)
    (hend : need = true → regs = none → bytes = []) : takeRegs need (encodeRegs regs ++ bytes) = (regs, bytes) := by
  cases need with
  | false => simp [hskip rfl, encodeRegs]
  | true =>
    cases regs with
    | none => rw [hend rfl rfl]; rfl
    | some r => simp [encodeRegs, takeRegs, splitRegs_join]

theorem takeImm_append : (takeImm need bytes).1 ++ (takeImm need bytes).2 = bytes := by
  cases need <;> simp [takeImm_true]

theorem takeImm_length_le : (takeImm need bytes).1.length ≤ 8 := by
  cases need <;> simp [takeImm_true]

/-- An immediate read is cut short only where the bytes end. -/
theorem takeImm_full_or_end : (need = true → (takeImm need bytes).1.length = 8) ∨ (takeImm need bytes).2 = [] := by
  cases need with
  | false => simp
  | true => simp only [takeImm_true, List.length_take, List.drop_eq_nil_iff]; omega

theorem takeImm_of_append {need : Bool} {imm : ImmRead} {rest : List Byte} (hskip : need = false → imm = [])
    (hle : imm.length ≤ 8) (hend : (need = true → imm.length = 8) ∨ rest = []) :
    takeImm need (imm ++ rest) = (imm, rest) := by
  cases need with
  | false => simp [hskip rfl]
  | true =>
    rcases hend with hfull | rfl
    · simp [takeImm_true, ← hfull rfl]
    · simp [takeImm_true, hle]

end reads

/-! ## The two reads of an opcode together -/

/-- What both reads obtain from any bytes fits the opcode, is in full or ends the bytes, and loses none of them. -/
theorem operandsFit_take (o : Opcode) (bytes : List Byte) :
    OperandsFit o (takeRegs o.needRegs bytes).1 (takeImm o.needImm (takeRegs o.needRegs bytes).2).1 where
  noRegs h := by simp [h]
  noImm h := by simp [h]
  immLength := takeImm_length_le _ _
  immBehindRegs hneed hnone := by
    have happ := takeImm_append o.needImm (takeRegs o.needRegs bytes).2
    rw [takeRegs_snd_eq_nil_of_none _ _ hneed hnone] at happ ⊢
    exact (List.append_eq_nil_iff.1 happ).1

theorem take_full_or_end (o : Opcode) (bytes : List Byte) :
    truncated o (takeRegs o.needRegs bytes).1 (takeImm o.needImm (takeRegs o.needRegs bytes).2).1 = false ∨
      (takeImm o.needImm (takeRegs o.needRegs bytes).2).2 = [] := by
  rw [truncated_eq_false_iff]
  by_cases hregs : o.needRegs = true ∧ (takeRegs o.needRegs bytes).1 = none
  · have happ := takeImm_append o.needImm (takeRegs o.needRegs bytes).2
    rw [takeRegs_snd_eq_nil_of_none _ _ hregs.1 hregs.2] at happ ⊢
    exact .inr (List.append_eq_nil_iff.1 happ).2
  · exact (takeImm_full_or_end o.needImm (takeRegs o.needRegs bytes).2).imp_left
      fun himm => ⟨fun hneed hnone => hregs ⟨hneed, hnone⟩, himm⟩

/-- The operands of a legal instruction are what its opcode's reads obtain, the bytes behind it what they leave. -/
theorem decode_eq_instr {bytes : List Byte} {i : Instr} {rest : List Byte} (h : decode bytes = .instr i rest) :
    ∃ behind, bytes = i.mnemonic.header :: behind ∧
      i.regs = (takeRegs i.mnemonic.opcode.needRegs behind).1 ∧
      i.imm = (takeImm i.mnemonic.opcode.needImm (takeRegs i.mnemonic.opcode.needRegs behind).2).1 ∧
      rest = (takeImm i.mnemonic.opcode.needImm (takeRegs i.mnemonic.opcode.needRegs behind).2).2 := by
  cases bytes with
  | nil => cases h
  | cons b behind =>
    rw [decode_cons] at h
    cases hc : classify b with
    | badOpcode v => rw [hc] at h; cases h
    | badFunction v => rw [hc] at h; cases h
    | legal o f mn =>
      rw [hc] at h
      obtain ⟨rfl, rfl, -⟩ := classify_eq_legal.1 hc
      obtain ⟨rfl, rfl⟩ := DecodeResult.instr.inj h
      have hfit := operandsFit_take mn.opcode behind
      rw [Mnemonic.toInstr_mnemonic]
      exact ⟨behind, rfl, hfit.toInstr_regs, hfit.toInstr_imm, rfl⟩

theorem decode_encode_append {i : Instr} {rest : List Byte} (hfit : OperandsFit i.mnemonic.opcode i.regs i.imm)
    (hend : truncated i.mnemonic.opcode i.regs i.imm = false ∨ rest = []) :
    decode (encode i ++ rest) = .instr i rest := by
  have hregs : takeRegs i.mnemonic.opcode.needRegs (encodeRegs i.regs ++ (i.imm ++ rest)) =
      (i.regs, i.imm ++ rest) := by
    refine takeRegs_encodeRegs hfit.noRegs fun hneed hnone => ?_
    rcases hend with hfull | rfl
    · exact absurd hnone ((truncated_eq_false_iff.1 hfull).1 hneed)
    · rw [hfit.immBehindRegs hneed hnone, List.append_nil]
  have himm : takeImm i.mnemonic.opcode.needImm (i.imm ++ rest) = (i.imm, rest) :=
    takeImm_of_append hfit.noImm hfit.immLength (hend.imp_left fun hfull => (truncated_eq_false_iff.1 hfull).2)
  rw [encode, List.cons_append, List.append_assoc, decode_cons, classify_header]
  simp only [hregs, himm, Instr.toInstr_eta]

/-- Settles O1: each operand read of the decoder obtains the operand whose bytes the encoder wrote
(`takeRegs_encodeRegs`, `takeImm_of_append`). -/
theorem decodeOfEncodeReturnsInstruction : Obligations.DecodeOfEncodeReturnsInstruction := by
  unfold Obligations.DecodeOfEncodeReturnsInstruction
  intro i rest hwf hend
  refine decode_encode_append (i.wellFormed_iff.1 hwf) (hend.imp_left fun hcomplete => ?_)
  rw [truncated_eq_not_complete i hwf, hcomplete, Bool.not_true]

/-- Settles O2: the instruction is the header's with what the reads obtained (`decode_eq_instr`), which fits the opcode
(`operandsFit_take`), is cut short only at the end (`take_full_or_end`) and loses no byte. -/
theorem encodeOfDecodeReturnsBytes : Obligations.EncodeOfDecodeReturnsBytes := by
  unfold Obligations.EncodeOfDecodeReturnsBytes
  intro bytes i rest h
  obtain ⟨behind, rfl, hregs, himm, hrest⟩ := decode_eq_instr h
  have hwf : i.WellFormed = true := by
    rw [Instr.wellFormed_iff, hregs, himm]; exact operandsFit_take _ _
  refine ⟨hwf, ?_, ?_⟩
  · rw [encode, hregs, himm, hrest, List.cons_append, List.append_assoc, takeImm_append, encodeRegs_takeRegs]
  · have hend := take_full_or_end i.mnemonic.opcode behind
    rwa [← hregs, ← himm, ← hrest, truncated_eq_not_complete i hwf, Bool.not_eq_false'] at hend

end Sys2Proof

/-! # Proofs: what a step delivers, and the invariant it keeps (10_state.md R13 to R19, R23; 40_decode_step.md R94) -/

namespace Sys2Proof.Machine

/-! ## The state after the instruction at the cursor -/

section afterInstruction
variable (s : State) (h : Byte) (o : Opcode) (f : Nibble) (mn : Mnemonic)

@[simp] theorem State.afterFull_pc : (s.afterFull h o f mn).pc = s.pc + BitVec.ofNat 64 o.len := rfl
@[simp] theorem State.afterFull_cur : (s.afterFull h o f mn).cur = s.cur + BitVec.ofNat 64 o.len := rfl
@[simp] theorem State.afterFull_status : (s.afterFull h o f mn).status = s.status := rfl
@[simp] theorem State.afterFull_stream : (s.afterFull h o f mn).stream = s.stream := rfl
@[simp] theorem State.afterFull_resetDone : (s.afterFull h o f mn).resetDone = s.resetDone := rfl
@[simp] theorem State.afterFull_events : (s.afterFull h o f mn).events =
    s.events ++ [.full (buildRecord s.pc o (highNibble h) f mn (s.regsAt o) (s.immAt o))] := rfl

@[simp] theorem State.afterShort_pc : (s.afterShort h o f mn).pc = s.pc := rfl
@[simp] theorem State.afterShort_cur : (s.afterShort h o f mn).cur =
    s.cur + BitVec.ofNat 64 (s.stream.size.val - s.cur.toNat) := rfl
@[simp] theorem State.afterShort_status : (s.afterShort h o f mn).status = .errMemory := rfl
@[simp] theorem State.afterShort_stream : (s.afterShort h o f mn).stream = s.stream := rfl
@[simp] theorem State.afterShort_resetDone : (s.afterShort h o f mn).resetDone = s.resetDone := rfl
@[simp] theorem State.afterShort_errLen : (s.afterShort h o f mn).errLen = BitVec.ofNat 4 o.len := rfl
@[simp] theorem State.afterShort_errCnt : (s.afterShort h o f mn).errCnt =
    BitVec.ofNat 4 (s.stream.size.val - s.cur.toNat) := rfl
@[simp] theorem State.afterShort_events : (s.afterShort h o f mn).events = s.events ++
    [.partialRecord (buildRecord s.pc o (highNibble h) f mn (s.regsAt o) (s.immAt o)),
      .terminal (.memoryAccessError s.pc (BitVec.ofNat 4 o.len)
        (BitVec.ofNat 4 (s.stream.size.val - s.cur.toNat)))] := rfl
@[simp] theorem State.afterShort_latched : (s.afterShort h o f mn).latched? = some (.memoryAccessError s.pc
    (BitVec.ofNat 4 o.len) (BitVec.ofNat 4 (s.stream.size.val - s.cur.toNat))) := rfl

end afterInstruction

/-! ## Sound records (10_state.md R23) -/

/-- The reads at the cursor obtain operands that fit the opcode. -/
theorem operandsFit_at (s : State) (o : Opcode) : OperandsFit o (s.regsAt o) (s.immAt o) where
  noRegs h := by simp [State.regsAt, h]
  noImm h := by simp [State.immAt, h]
  immLength := by
    unfold State.immAt
    split
    · exact (Memory.readPrefix_length _ _ _).trans_le (Nat.min_le_left _ _)
    · exact Nat.zero_le _
  immBehindRegs hneed hnone := by
    have hend : s.stream.byteAt? (s.cur.toNat + 1) = none := by simpa [State.regsAt, hneed] using hnone
    have hbehind : s.stream.byteAt? (s.cur.toNat + 1 + 1) = none := by
      rw [Memory.byteAt_eq_none] at hend ⊢; omega
    simp [State.immAt, hneed, Memory.readPrefix_eq_nil 8 hbehind]

section record
variable {p : Word} {o : Opcode} {regs : RegRead} {imm : ImmRead}

theorem immediateValid_eq_false_iff : immediateValid imm = false ↔ imm = [] := by
  cases imm <;> simp [immediateValid]

/-- Valid implies present: what an opcode has no read for is not obtained. -/
theorem needRegs_of_valid (hfit : OperandsFit o regs imm) (h : registersValid regs = true) :
    o.needRegs = true := by
  by_contra hneed
  simp [registersValid, hfit.noRegs (Bool.eq_false_of_not_eq_true hneed)] at h

theorem needImm_of_valid (hfit : OperandsFit o regs imm) (h : immediateValid imm = true) :
    o.needImm = true := by
  by_contra hneed
  simp [immediateValid, hfit.noImm (Bool.eq_false_of_not_eq_true hneed)] at h

/-- A record built at a mnemonic's own header from operands that fit it is sound. -/
theorem buildRecord_sound {mn : Mnemonic} (hfit : OperandsFit mn.opcode regs imm) :
    (buildRecord p mn.opcode (highNibble mn.header) (lowNibble mn.header) mn regs imm).Sound where
  legal := ⟨mn.opcode, ofNibble_header mn, mnemonic_header mn⟩
  fromLength o ho := by
    obtain rfl : mn.opcode = o := Option.some.inj ((ofNibble_header mn).symm.trans ho)
    exact ⟨rfl, rfl, rfl⟩
  regsValid := needRegs_of_valid hfit
  immValid := needImm_of_valid hfit
  regsAbsent hinvalid := by
    have hnone : regs = none := by simpa [buildRecord, registersValid] using hinvalid
    simp [buildRecord, hnone]
  immZero hinvalid := by
    have hnil : imm = [] := immediateValid_eq_false_iff.1 hinvalid
    simp [buildRecord, hnil]

section full
variable (hfit : OperandsFit o regs imm) (hfull : truncated o regs imm = false)
include hfit hfull

theorem registersValid_of_full : registersValid regs = o.needRegs := by
  cases hneed : o.needRegs with
  | false => rw [hfit.noRegs hneed]; rfl
  | true => exact Option.isSome_iff_ne_none.2 ((truncated_eq_false_iff.1 hfull).1 hneed)

theorem immediateValid_of_full : immediateValid imm = o.needImm := by
  cases hneed : o.needImm with
  | false => rw [hfit.noImm hneed]; rfl
  | true => rw [immediateValid, (truncated_eq_false_iff.1 hfull).2 hneed]; rfl

/-- With both operands in full, each operand present is valid. -/
theorem buildRecord_full {icode f : Nibble} {mn : Mnemonic} : (buildRecord p o icode f mn regs imm).Full :=
  ⟨registersValid_of_full hfit hfull, immediateValid_of_full hfit hfull⟩

end full

end record

/-! ## What a step delivers -/

section delivered
variable {s t : State}

theorem not_truncated_at {h : Byte} {o : Opcode} (hh : s.stream.byteAt? s.cur.toNat = some h)
    (hl : o.len ≤ s.stream.size.val - s.cur.toNat) : truncated o (s.regsAt o) (s.immAt o) = false := by
  rw [State.truncated_at o hh, decide_eq_false_iff_not]
  omega

/-- Every step extends the list of deliveries, by sound events. -/
theorem StepCase.delivers_sound (hcase : StepCase s t) : ∃ d, t.events = s.events ++ d ∧ ∀ e ∈ d, e.Sound := by
  cases hcase with
  | latched τ hl ht => exact ⟨[.terminal τ], by rw [ht, State.emit_events], by simp [Event.Sound]⟩
  | noHeader hr hh ht => exact ⟨[.terminal .endOfStream], by rw [ht, State.raise_events], by simp [Event.Sound]⟩
  | badOpcode hr h hh hc hv ht => exact ⟨_, by rw [ht, State.raise_events, State.consume_events], by simp [Event.Sound]⟩
  | badFunction hr h hh hc o ho hm ht =>
    exact ⟨_, by rw [ht, State.raise_events, State.consume_events], by simp [Event.Sound]⟩
  | full hr h hh o f mn hc hl ht =>
    obtain ⟨rfl, rfl, rfl⟩ := classify_eq_legal.1 hc
    have hfit := operandsFit_at s mn.opcode
    exact ⟨_, by rw [ht, State.afterFull_events],
      by simpa [Event.Sound] using ⟨buildRecord_sound hfit, buildRecord_full hfit (not_truncated_at hh hl)⟩⟩
  | short hr h hh o f mn hc hl ht =>
    obtain ⟨rfl, rfl, rfl⟩ := classify_eq_legal.1 hc
    exact ⟨_, by rw [ht, State.afterShort_events],
      by simpa [Event.Sound] using buildRecord_sound (operandsFit_at s mn.opcode)⟩

theorem StepCase.stream_eq (hcase : StepCase s t) : t.stream = s.stream := by
  cases hcase <;> simp [*]

theorem StepCase.resetDone_eq (hcase : StepCase s t) : t.resetDone = s.resetDone := by
  cases hcase <;> simp [*]

end delivered

/-! ## The invariant, status by status -/

section invariant
variable {s : State}

theorem toNat_ofNat_nibble {n : Nat} (hn : n < 16) : (BitVec.ofNat 4 n).toNat = n :=
  Nat.mod_eq_of_lt hn

theorem statusInv_of_run (hr : s.status = .run) : s.StatusInv ↔ s.cur = s.pc := by
  rw [State.StatusInv, hr]

theorem statusInv_noHeader (hpc : s.cur = s.pc) (hh : s.stream.byteAt? s.cur.toNat = none) :
    (s.raise .endOfStream).StatusInv := by
  change s.cur = s.pc ∧ s.stream.size.val ≤ s.pc.toNat
  exact ⟨hpc, Memory.byteAt_eq_none.1 (hpc ▸ hh)⟩

theorem statusInv_badOpcode {h : Byte} (hpc : s.cur = s.pc) (hh : s.stream.byteAt? s.cur.toNat = some h)
    (hv : 12 ≤ (highNibble h).toNat) : ((s.consume 1).raise (.invalidOpcode (highNibble h) s.pc)).StatusInv := by
  change s.cur + 1 = s.pc + 1 ∧ s.pc = s.pc ∧
    ∃ b, s.stream.byteAt? s.pc.toNat = some b ∧ highNibble h = highNibble b ∧ 12 ≤ (highNibble h).toNat
  exact ⟨by rw [hpc], rfl, h, hpc ▸ hh, rfl, hv⟩

theorem statusInv_badFunction {h : Byte} {o : Opcode} (hpc : s.cur = s.pc)
    (hh : s.stream.byteAt? s.cur.toNat = some h) (ho : Opcode.ofNibble (highNibble h) = some o)
    (hm : o.mnemonic (lowNibble h) = none) :
    ((s.consume 1).raise (.invalidFunctionCode (lowNibble h) s.pc)).StatusInv := by
  change s.cur + 1 = s.pc + 1 ∧ s.pc = s.pc ∧ ∃ b o, s.stream.byteAt? s.pc.toNat = some b ∧
    lowNibble h = lowNibble b ∧ Opcode.ofNibble (highNibble b) = some o ∧ o.mnemonic (lowNibble h) = none
  exact ⟨by rw [hpc], rfl, h, o, hpc ▸ hh, rfl, ho, hm⟩

theorem statusInv_full {h : Byte} {o : Opcode} {f : Nibble} {mn : Mnemonic} (hr : s.status = .run)
    (hpc : s.cur = s.pc) : (s.afterFull h o f mn).StatusInv := by
  rw [statusInv_of_run (by simpa using hr)]
  simp [hpc]

/-- A truncation latches what is left, at least the header byte and less than the declared length, and the cursor past
it stands at N (60_exceptions.md R206). -/
theorem statusInv_short {h : Byte} {o : Opcode} {f : Nibble} {mn : Mnemonic} (hpc : s.cur = s.pc)
    (hh : s.stream.byteAt? s.cur.toNat = some h) (ho : Opcode.ofNibble (highNibble h) = some o)
    (hl : s.stream.size.val - s.cur.toNat < o.len) : (s.afterShort h o f mn).StatusInv := by
  have hlt := (Memory.byteAt_eq_some.1 hh).1
  have hten := o.len_le
  have hcnt := toNat_ofNat_nibble (n := s.stream.size.val - s.cur.toNat) (by omega)
  have hlen := toNat_ofNat_nibble (n := o.len) (by omega)
  change s.pc = s.pc ∧ s.cur + BitVec.ofNat 64 _ = s.pc + BitVec.setWidth 64 (BitVec.ofNat 4 _) ∧
    (s.cur + BitVec.ofNat 64 _).toNat = s.stream.size.val ∧ 1 ≤ (BitVec.ofNat 4 _).toNat ∧
    (BitVec.ofNat 4 _).toNat < (BitVec.ofNat 4 o.len).toNat ∧ ∃ b o', s.stream.byteAt? s.pc.toNat = some b ∧
      Opcode.ofNibble (highNibble b) = some o' ∧ (BitVec.ofNat 4 o.len).toNat = o'.len
  rw [s.cur_add_toNat _ le_rfl, hcnt, hlen]
  refine ⟨rfl, ?_, by omega, by omega, hl, h, o, hpc ▸ hh, ho, rfl⟩
  rw [hpc, ← BitVec.ofNat_toNat, ← hpc, hcnt]

theorem StepCase.statusInv {t : State} (hcase : StepCase s t) (hinv : s.StatusInv) : t.StatusInv := by
  cases hcase with
  | latched τ hl ht => rw [ht]; exact hinv
  | noHeader hr hh ht => rw [ht]; exact statusInv_noHeader ((statusInv_of_run hr).1 hinv) hh
  | badOpcode hr h hh hc hv ht => rw [ht]; exact statusInv_badOpcode ((statusInv_of_run hr).1 hinv) hh hv
  | badFunction hr h hh hc o ho hm ht =>
    rw [ht]; exact statusInv_badFunction ((statusInv_of_run hr).1 hinv) hh ho hm
  | full hr h hh o f mn hc hl ht => rw [ht]; exact statusInv_full hr ((statusInv_of_run hr).1 hinv)
  | short hr h hh o f mn hc hl ht =>
    obtain ⟨rfl, rfl, rfl⟩ := classify_eq_legal.1 hc
    rw [ht]; exact statusInv_short ((statusInv_of_run hr).1 hinv) hh (ofNibble_header mn) hl

end invariant

/-- Settles O49: no step writes the byte source, each of the six cases keeps what its status says
(`StepCase.statusInv`), and what is delivered is sound (`StepCase.delivers_sound`). -/
theorem stepKeepsTheInvariant : Obligations.StepKeepsTheInvariant := by
  unfold Obligations.StepKeepsTheInvariant
  intro s t hinv h
  obtain ⟨-, hcase⟩ := step_cases h
  obtain ⟨d, hevents, hsound⟩ := hcase.delivers_sound
  refine ⟨hcase.stream_eq ▸ hinv.streamWf, hcase.statusInv hinv.byStatus, fun e he => ?_⟩
  rw [hevents, List.mem_append] at he
  exact he.elim (hinv.delivered e) (hsound e)

/-- Settles O48: after Reset the cursor stands at `pc` and nothing has been delivered. -/
theorem resetHasTheInvariant : Obligations.ResetHasTheInvariant := by
  unfold Obligations.ResetHasTheInvariant
  have hreset : ∀ (stream : Memory) (start : Option Word), stream.wf = true → (resetWith stream start).Inv :=
    fun stream start hwf => ⟨hwf, (statusInv_of_run rfl).2 rfl, by simp⟩
  exact ⟨hreset _ none rfl, hreset⟩

/-! ## What a truncation lacks (10_state.md R23 item 5) -/

/-- The bytes read, less the header byte and the register byte obtained, are the immediate's (40_decode_step.md R92). -/
theorem bytesRead_sub (regs : RegRead) (imm : ImmRead) :
    bytesRead regs imm - 1 - (if registersValid regs then 1 else 0) = imm.length := by
  unfold bytesRead
  omega

theorem registersValid_eq_false_iff {regs : RegRead} : registersValid regs = false ↔ regs = none := by
  cases regs <;> simp [registersValid]

theorem truncated_iff {o : Opcode} {regs : RegRead} {imm : ImmRead} (hfit : OperandsFit o regs imm) :
    truncated o regs imm = true ↔
      (o.needRegs = true ∧ registersValid regs = false) ∨ (o.needImm = true ∧ imm.length < 8) := by
  rw [← Bool.not_eq_false, truncated_eq_false_iff, not_and_or, registersValid_eq_false_iff, hfit.immLength.lt_iff_ne]
  simp only [Classical.not_imp, ne_eq, not_not]

/-- The events of a truncation come from no other case of a step. -/
theorem StepCase.short_of_events {s t : State} {r : DecodedRecord} {e : Event} (hcase : StepCase s t)
    (hd : t.events = s.events ++ [.partialRecord r, e]) :
    ∃ h o f mn, s.stream.byteAt? s.cur.toNat = some h ∧ s.stream.size.val - s.cur.toNat < o.len ∧
      t = s.afterShort h o f mn := by
  cases hcase with
  | latched τ hl ht => simp [ht] at hd
  | noHeader hr hh ht => simp [ht] at hd
  | badOpcode hr h hh hc hv ht => simp [ht] at hd
  | badFunction hr h hh hc o ho hm ht => simp [ht] at hd
  | full hr h hh o f mn hc hl ht => simp [ht] at hd
  | short hr h hh o f mn hc hl ht => exact ⟨h, o, f, mn, hh, hl, ht⟩

/-- Settles O22: the events are sound by `StepCase.delivers_sound`, and a partial record comes from a truncation
(`StepCase.short_of_events`), which counts what was read and lacks an operand (`truncated_iff`). -/
theorem deliveredRecordsAreSound : Obligations.DeliveredRecordsAreSound := by
  unfold Obligations.DeliveredRecordsAreSound
  intro s t d h hd
  obtain ⟨-, hcase⟩ := step_cases h
  obtain ⟨d', hd', hsound⟩ := hcase.delivers_sound
  obtain rfl : d' = d := List.append_cancel_left (hd'.symm.trans hd)
  refine ⟨hsound, ?_⟩
  rintro r p l c rfl
  obtain ⟨b, o, f, mn, hh, hl, rfl⟩ := hcase.short_of_events hd
  rw [State.afterShort_events, List.append_cancel_left_eq] at hd
  obtain ⟨rfl, -, -, rfl⟩ : _ ∧ _ ∧ _ ∧ _ := by simpa using hd
  have htrunc : truncated o (s.regsAt o) (s.immAt o) = true := by rw [State.truncated_at o hh]; exact decide_eq_true hl
  have hread : s.stream.size.val - s.cur.toNat = bytesRead (s.regsAt o) (s.immAt o) := by
    rw [State.bytesRead_at o hh, Nat.min_eq_right hl.le]
  have hten := o.len_le
  rw [toNat_ofNat_nibble (by omega), hread]
  refine ((truncated_iff (operandsFit_at s o)).1 htrunc).imp_right fun ⟨hneed, hlt⟩ => ⟨hneed, ?_⟩
  exact (bytesRead_sub _ _).trans_lt hlt

/-! ## One outcome a step (40_decode_step.md R94) -/

theorem not_latched_of_run {s : State} {τ : Terminal} (hr : s.status = .run) : s.latched? ≠ some τ := by
  rw [(State.latched_none_iff s).2 hr]
  exact (Option.some_ne_none τ).symm

/-- Settles O16: the five cases of a step while RUN (`step_total`), one for each outcome. -/
theorem everyStepHasOneOutcome : Obligations.EveryStepHasOneOutcome := by
  unfold Obligations.EveryStepHasOneOutcome
  intro s hd hr
  obtain ⟨t, hstep, hcase⟩ := step_total s hd
  cases hcase with
  | latched τ hl ht => exact absurd hl (not_latched_of_run hr)
  | noHeader _ hh ht =>
    exact ⟨t, _, hstep, by rw [ht, State.raise_events], .inr (.inl ⟨rfl, by simp [ht, Terminal.status]⟩)⟩
  | badOpcode _ h hh hc hv ht =>
    exact ⟨t, _, hstep, by rw [ht, State.raise_events, State.consume_events],
      .inr (.inr (.inl ⟨h, hh, rfl, by simp [ht, Terminal.status]⟩))⟩
  | badFunction _ h hh hc o ho hm ht =>
    exact ⟨t, _, hstep, by rw [ht, State.raise_events, State.consume_events],
      .inr (.inr (.inr (.inl ⟨h, hh, rfl, by simp [ht, Terminal.status]⟩)))⟩
  | full _ h hh o f mn hc hl ht =>
    exact ⟨t, _, hstep, by rw [ht, State.afterFull_events], .inl ⟨_, rfl, by simpa [ht] using hr⟩⟩
  | short _ h hh o f mn hc hl ht =>
    exact ⟨t, _, hstep, by rw [ht, State.afterShort_events],
      .inr (.inr (.inr (.inr ⟨_, _, _, rfl, by simp [ht]⟩)))⟩

/-- Settles O17: no case of a step writes the byte source or takes back an event. -/
theorem noStepWritesTheStream : Obligations.NoStepWritesTheStream := by
  unfold Obligations.NoStepWritesTheStream
  intro s t h
  obtain ⟨-, hcase⟩ := step_cases h
  obtain ⟨d, hevents, -⟩ := hcase.delivers_sound
  exact ⟨hcase.stream_eq, fun a => by rw [hcase.stream_eq], hcase.resetDone_eq, d, hevents⟩

/-- Settles O18: the case of a step is told by what stands at the cursor, which the earlier events do not change. -/
theorem outcomeIndependentOfDeliveredEvents : Obligations.OutcomeIndependentOfDeliveredEvents := by
  unfold Obligations.OutcomeIndependentOfDeliveredEvents
  intro s earlier hd
  obtain ⟨t, hstep, hcase⟩ := step_total s hd
  cases hcase with
  | latched τ hl ht =>
    subst ht
    exact ⟨_, _, hstep, State.emit_events _ _, step_of_latched (s := { s with events := earlier }) hd hl⟩
  | noHeader hr hh ht =>
    subst ht
    exact ⟨_, _, hstep, State.raise_events _ _, step_of_noHeader (s := { s with events := earlier }) hd hr hh⟩
  | badOpcode hr h hh hc hv ht =>
    subst ht
    exact ⟨_, _, hstep, State.raise_events _ _, step_of_badOpcode (s := { s with events := earlier }) hd hr hh hc⟩
  | badFunction hr h hh hc o ho hm ht =>
    subst ht
    exact ⟨_, _, hstep, State.raise_events _ _, step_of_badFunction (s := { s with events := earlier }) hd hr hh hc⟩
  | full hr h hh o f mn hc hl ht =>
    subst ht
    exact ⟨_, _, hstep, State.afterFull_events _ _ _ _ _,
      step_of_full (s := { s with events := earlier }) hd hr hh hc hl⟩
  | short hr h hh o f mn hc hl ht =>
    subst ht
    exact ⟨_, _, hstep, State.afterShort_events _ _ _ _ _,
      step_of_short (s := { s with events := earlier }) hd hr hh hc hl⟩

/-! ## The outcome that ended the run (40_decode_step.md R102) -/

/-- The step that ends a run delivers, last, the outcome that it latches. -/
theorem StepCase.latches_last {s t : State} (hcase : StepCase s t) (hr : s.status = .run) (hover : t.RunOver) :
    ∃ d τ, t.events = s.events ++ d ∧ d.getLast? = some (.terminal τ) ∧ t.latched? = some τ := by
  cases hcase with
  | latched τ hl ht => exact absurd hl (not_latched_of_run hr)
  | noHeader _ hh ht => subst ht; exact ⟨_, _, State.raise_events _ _, rfl, State.raise_latched _ _⟩
  | badOpcode _ h hh hc hv ht => subst ht; exact ⟨_, _, State.raise_events _ _, rfl, State.raise_latched _ _⟩
  | badFunction _ h hh hc o ho hm ht => subst ht; exact ⟨_, _, State.raise_events _ _, rfl, State.raise_latched _ _⟩
  | full _ h hh o f mn hc hl ht => subst ht; exact absurd hr hover
  | short _ h hh o f mn hc hl ht =>
    subst ht
    exact ⟨_, _, State.afterShort_events _ _ _ _ _, rfl, State.afterShort_latched _ _ _ _ _⟩

/-- Settles O43: the last event is what is latched (`StepCase.latches_last`), and the next step delivers that. -/
theorem redeliveredOutcomeEndedTheRun : Obligations.RedeliveredOutcomeEndedTheRun := by
  unfold Obligations.RedeliveredOutcomeEndedTheRun
  intro s t u hd hr hstep hover hnext
  obtain ⟨-, hcase⟩ := step_cases hstep
  obtain ⟨d, τ, hevents, hlast, hl⟩ := hcase.latches_last hr hover
  have hdt : t.resetDone = true := hcase.resetDone_eq.trans hd
  exact ⟨d, τ, hevents, hlast, (Host.Outcome.next.inj ((step_of_latched hdt hl).symm.trans hnext)).symm⟩

/-! ## Legality by the header byte (60_exceptions.md R205, R214) -/

section legality
variable {s t : State} {h : Byte} (hs : s.Ready) (hh : s.stream.byteAt? s.pc.toNat = some h) (hstep : step s = .next t)
include hs hh hstep

theorem status_of_badOpcode {v : Nibble} (hc : classify h = .badOpcode v) : t.status = .errOpcode ∧ t.errVal = v := by
  rw [← Host.Outcome.next.inj ((step_eq_afterBadOpcode hs hh hc).symm.trans hstep)]
  exact ⟨rfl, rfl⟩

theorem status_of_badFunction {v : Nibble} (hc : classify h = .badFunction v) :
    t.status = .errFunction ∧ t.errVal = v := by
  rw [← Host.Outcome.next.inj ((step_eq_afterBadFunction hs hh hc).symm.trans hstep)]
  exact ⟨rfl, rfl⟩

theorem status_of_legal {o : Opcode} {f : Nibble} {mn : Mnemonic} (hc : classify h = .legal o f mn) :
    t.status = .run ∨ t.status = .errMemory := by
  by_cases hl : o.len ≤ s.bytesLeft
  · rw [← Host.Outcome.next.inj ((step_eq_afterRecord hs hh hc hl).symm.trans hstep)]
    exact .inl hs.running
  · rw [← Host.Outcome.next.inj ((step_eq_afterTruncation hs hh hc (by omega)).symm.trans hstep)]
    exact .inr rfl

end legality

/-- Settles O19: the classifier's answer for the header byte says which error there is, and with which value
(`status_of_badOpcode`, `status_of_badFunction`), or that there is none (`status_of_legal`). -/
theorem legalityDependsOnHeaderByteAlone : Obligations.LegalityDependsOnHeaderByteAlone := by
  unfold Obligations.LegalityDependsOnHeaderByteAlone
  intro s s' t t' h hs hs' hh hh' hstep hstep'
  cases hc : classify h with
  | badOpcode v =>
    obtain ⟨ht, hv⟩ := status_of_badOpcode hs hh hstep hc
    obtain ⟨ht', hv'⟩ := status_of_badOpcode hs' hh' hstep' hc
    simp [ht, ht', hv, hv']
  | badFunction v =>
    obtain ⟨ht, hv⟩ := status_of_badFunction hs hh hstep hc
    obtain ⟨ht', hv'⟩ := status_of_badFunction hs' hh' hstep' hc
    simp [ht, ht', hv, hv']
  | legal o f mn =>
    rcases status_of_legal hs hh hstep hc with ht | ht <;>
      rcases status_of_legal hs' hh' hstep' hc with ht' | ht' <;> simp [ht, ht']

/-! ## The program counter and the cursor (10_state.md R13 to R16; 20_memory.md R34) -/

/-- A step delivers a full record, or it keeps `pc` and the run is over. -/
theorem StepCase.full_or_over {s t : State} (hcase : StepCase s t) :
    (∃ h o f mn, s.status = .run ∧ s.stream.byteAt? s.cur.toNat = some h ∧ classify h = .legal o f mn ∧
      o.len ≤ s.stream.size.val - s.cur.toNat ∧ t = s.afterFull h o f mn) ∨ (t.pc = s.pc ∧ t.RunOver) := by
  cases hcase with
  | latched τ hl ht =>
    subst ht
    exact .inr ⟨State.emit_pc _ _, fun hr => not_latched_of_run hr hl⟩
  | noHeader hr hh ht => exact .inr (by simp [ht, State.RunOver, Terminal.status])
  | badOpcode hr h hh hc hv ht => exact .inr (by simp [ht, State.RunOver, Terminal.status])
  | badFunction hr h hh hc o ho hm ht => exact .inr (by simp [ht, State.RunOver, Terminal.status])
  | full hr h hh o f mn hc hl ht => exact .inl ⟨h, o, f, mn, hr, hh, hc, hl, ht⟩
  | short hr h hh o f mn hc hl ht => exact .inr (by simp [ht, State.RunOver])

/-- Settles O20: a step with another outcome than a record keeps `pc` (`StepCase.full_or_over`); the bytes of a record
lie below N, so that adding its length does not wrap (`State.cur_add_toNat`). -/
theorem pcMovesOnlyByDeclaredLength : Obligations.PcMovesOnlyByDeclaredLength := by
  unfold Obligations.PcMovesOnlyByDeclaredLength
  refine ⟨resetWith_pc, fun s t hstep hne => ?_, fun s t hs hstep => ?_⟩
  · obtain ⟨h, o, f, mn, -, -, -, -, rfl⟩ | ⟨hpc, -⟩ := (step_cases hstep).2.full_or_over
    · exact ⟨_, State.afterFull_events _ _ _ _ _, rfl, rfl⟩
    · exact absurd hpc hne
  · obtain ⟨h, o, f, mn, hr, hh, hc, hl, rfl⟩ | ⟨hpc, hover⟩ := (step_cases hstep).2.full_or_over
    · refine ⟨fun hover => absurd hr hover, fun _ => ?_⟩
      obtain ⟨rfl, rfl, rfl⟩ := classify_eq_legal.1 hc
      have hlt := (Memory.byteAt_eq_some.1 hh).1
      have hadd := s.cur_add_toNat _ hl
      rw [hs.atPc] at hh hl hadd hlt
      refine ⟨_, _, hh, ofNibble_header mn, rfl, hadd, ?_, by simp [hs.atPc]⟩
      rw [State.afterFull_pc, hadd]
      omega
    · exact ⟨fun _ => hpc, fun hr => absurd hr hover⟩

/-- Settles O21: in each case of a step the cursor moves past what the reads obtained, which lies below N
(`State.cur_add_toNat`). -/
theorem cursorAdvancesByBytesConsumed : Obligations.CursorAdvancesByBytesConsumed := by
  unfold Obligations.CursorAdvancesByBytesConsumed
  intro s t _ hr hstep
  obtain ⟨-, hcase⟩ := step_cases hstep
  cases hcase with
  | latched τ hl ht => exact absurd hl (not_latched_of_run hr)
  | noHeader _ hh ht => simp [ht, Terminal.status]
  | badOpcode _ h hh hc hv ht =>
    have hlt := (Memory.byteAt_eq_some.1 hh).1
    have hadd := s.cur_add_toNat 1 (by omega)
    simp [ht, Terminal.status, hadd]
  | badFunction _ h hh hc o ho hm ht =>
    have hlt := (Memory.byteAt_eq_some.1 hh).1
    have hadd := s.cur_add_toNat 1 (by omega)
    simp [ht, Terminal.status, hadd]
  | full _ h hh o f mn hc hl ht =>
    have hadd := s.cur_add_toNat _ hl
    simp [ht, hr, hadd, buildRecord]
  | short _ h hh o f mn hc hl ht =>
    have hlt := (Memory.byteAt_eq_some.1 hh).1
    have hten := o.len_le
    have hadd := s.cur_add_toNat _ le_rfl
    have hcnt := toNat_ofNat_nibble (n := s.stream.size.val - s.cur.toNat) (by omega)
    have hlen := toNat_ofNat_nibble (n := o.len) (by omega)
    simp only [ht, State.afterShort_cur, State.afterShort_status, State.afterShort_errCnt, State.afterShort_errLen,
      hadd, hcnt, hlen]
    exact ⟨by omega, nofun, by simp, fun _ => ⟨trivial, by omega, hl⟩, nofun⟩

end Sys2Proof.Machine

/-! # Proofs: the other instructions' steps, and every instruction's meaning (40_decode_step.md R97 to R99) -/

namespace Sys2Proof.Machine

open Claims

/-! ## The steps at the header bytes of ret, pushq, popq, call, rmmovq and mrmovq -/

/-- Settles O24: the record is `stepL1_of_len_one` at ret's header byte, the errors
`functionCodesIllegalFrom_names_length` at an opcode with one name. -/
theorem retSteps : Obligations.RetSteps := by
  unfold Obligations.RetSteps
  exact ⟨rfl, stepL1_of_len_one (classify_header .ret) rfl, functionCodesIllegalFrom_names_length (o := .ret) rfl⟩

/-- Settles O27: the steps are `stepL2_header`, the errors `functionCodesIllegalFrom_names_length` at opcodes with one
name. -/
theorem pushPopSteps : Obligations.PushPopSteps := by
  unfold Obligations.PushPopSteps
  exact ⟨stepL2_header .pushq rfl, stepL2_header .popq rfl, functionCodesIllegalFrom_names_length (o := .pushq) rfl,
    functionCodesIllegalFrom_names_length (o := .popq) rfl⟩

/-- Settles O29: the step is `stepL9_header`, the errors `functionCodesIllegalFrom_names_length` at an opcode with one
name. -/
theorem callSteps : Obligations.CallSteps := by
  unfold Obligations.CallSteps
  exact ⟨stepL9_header .call rfl, functionCodesIllegalFrom_names_length (o := .call) rfl⟩

/-- Settles O31: the steps are `stepL10_of_len_ten` at the two header bytes, the errors
`functionCodesIllegalFrom_names_length` at opcodes with one name. -/
theorem rmmovqMrmovqSteps : Obligations.RmmovqMrmovqSteps := by
  unfold Obligations.RmmovqMrmovqSteps
  exact ⟨stepL10_of_len_ten (classify_header .rmmovq) rfl, stepL10_of_len_ten (classify_header .mrmovq) rfl,
    functionCodesIllegalFrom_names_length (o := .rmmovq) rfl, functionCodesIllegalFrom_names_length (o := .mrmovq) rfl⟩

/-! ## The bytes of an instruction against its declared length -/

section length
variable {o : Opcode} {regs : RegRead} {imm : ImmRead}

theorem bytesRead_of_full (hfit : OperandsFit o regs imm) (hfull : truncated o regs imm = false) :
    bytesRead regs imm = o.len := by
  obtain ⟨-, hlength⟩ := truncated_eq_false_iff.1 hfull
  rw [bytesRead, Opcode.len_eq, registersValid_of_full hfit hfull]
  cases hneed : o.needImm with
  | false => simp [hfit.noImm hneed]
  | true => simp [hlength hneed]

theorem bytesRead_lt_of_truncated (hfit : OperandsFit o regs imm) (htrunc : truncated o regs imm = true) :
    bytesRead regs imm < o.len := by
  rw [bytesRead, Opcode.len_eq]
  rcases (truncated_iff hfit).1 htrunc with ⟨hneed, hinvalid⟩ | ⟨hneed, hlt⟩
  · have hnil := hfit.immBehindRegs hneed (registersValid_eq_false_iff.1 hinvalid)
    simp only [hneed, hinvalid, hnil, List.length_nil, ite_true, Bool.false_eq_true, ite_false]
    omega
  · simp only [hneed, ite_true]
    split
    · rw [if_pos (needRegs_of_valid hfit ‹_›)]; omega
    · omega

end length

/-! ## Instructions obtained in full -/

/-- An instruction whose operands were obtained in full: the record, and `pc` and `cur` past the declared length. -/
theorem exec_of_full {mn : Mnemonic} {regs : RegRead} {imm : ImmRead} (hfit : OperandsFit mn.opcode regs imm)
    (hfull : truncated mn.opcode regs imm = false) (s : State) :
    exec (mn.toInstr regs imm) s = .next { s with
      pc := s.pc + BitVec.ofNat 64 mn.opcode.len
      cur := s.cur + BitVec.ofNat 64 mn.opcode.len
      events := s.events ++ [.full (buildRecord s.pc mn.opcode (highNibble mn.header) (lowNibble mn.header) mn
        regs imm)] } := by
  rw [exec_eq_deliver, Mnemonic.toInstr_mnemonic, hfit.toInstr_regs, hfit.toInstr_imm, deliver_of_sufficient s hfull,
    bytesRead_of_full hfit hfull]

/-- Every mnemonic of declared length 1 completes, there being no operand to read. -/
theorem exec_of_len_one {mn : Mnemonic} (ho : mn.opcode.len = 1) (hf : lowNibble mn.header = 0) (s : State) :
    exec (mn.toInstr none []) s = .next { s with
      pc := s.pc + 1, cur := s.cur + 1
      events := s.events ++ [.full (recordL1 s.pc (highNibble mn.header) mn)] } := by
  have hregs : mn.opcode.needRegs = false := by simp [Opcode.needRegs, ho]
  have himm : mn.opcode.needImm = false := by simp [Opcode.needImm, ho]
  rw [exec_of_full (by simp [operandsFit_iff]) (by simp [truncated_eq_false_iff, hregs, himm]), ho, hf]
  simp [buildRecord, recordL1, registersValid, immediateValid, hregs, himm, ho]

/-- Every mnemonic of declared length 2 completes on a register byte (42_len2_rrmovq_opq_push_pop.md R129). -/
theorem completesL2 (mn : Mnemonic) (ho : mn.opcode.len = 2) :
    CompletesL2 (mn.toInstr · []) (highNibble mn.header) (lowNibble mn.header) mn := by
  intro s rA rB _
  have hregs : mn.opcode.needRegs = true := by simp [Opcode.needRegs, ho]
  have himm : mn.opcode.needImm = false := by simp [Opcode.needImm, ho]
  rw [exec_of_full (by simp [operandsFit_iff, hregs]) (by simp [truncated_eq_false_iff, himm]), ho]
  simp [buildRecord, recordL2, registersValid, immediateValid, hregs, himm, ho]

/-- Every mnemonic of declared length 9 completes on eight immediate bytes (43_len9_jxx_call.md R159). -/
theorem completesL9 (mn : Mnemonic) (ho : mn.opcode.len = 9) :
    CompletesL9 (mn.toInstr none ·) (highNibble mn.header) (lowNibble mn.header) mn := by
  intro s m _ hm
  have hregs : mn.opcode.needRegs = false := by simp [Opcode.needRegs, ho]
  have himm : mn.opcode.needImm = true := by simp [Opcode.needImm, ho]
  rw [exec_of_full (by simp [operandsFit_iff, hregs, himm, hm]) (by simp [truncated_eq_false_iff, hregs, hm]), ho]
  simp [buildRecord, recordL9, registersValid, immediateValid, hregs, himm, ho]

/-- Every mnemonic of declared length 10 completes on a register byte and eight immediate bytes
(44_len10_irmovq_rmmovq_mrmovq.md R180). -/
theorem completesL10 (mn : Mnemonic) (ho : mn.opcode.len = 10) (hf : lowNibble mn.header = 0) :
    CompletesL10 mn.toInstr (highNibble mn.header) mn := by
  intro s rA rB m _ hm
  have hregs : mn.opcode.needRegs = true := by simp [Opcode.needRegs, ho]
  have himm : mn.opcode.needImm = true := by simp [Opcode.needImm, ho]
  rw [exec_of_full (by simp [operandsFit_iff, hregs, himm, hm]) (by simp [truncated_eq_false_iff, hm]), ho, hf]
  simp [buildRecord, recordL10, registersValid, immediateValid, hregs, himm, ho]

/-- Settles O32: each of the three is `exec_of_len_one`. -/
theorem execCompletesLengthOne : Obligations.ExecCompletesLengthOne := by
  unfold Obligations.ExecCompletesLengthOne
  exact fun s _ => ⟨exec_of_len_one (mn := .halt) rfl rfl s, exec_of_len_one (mn := .nop) rfl rfl s,
    exec_of_len_one (mn := .ret) rfl rfl s⟩

/-- Settles O33: each of the sixteen is `completesL2`. -/
theorem execCompletesLengthTwo : Obligations.ExecCompletesLengthTwo := by
  unfold Obligations.ExecCompletesLengthTwo
  exact ⟨completesL2 .rrmovq rfl, completesL2 .cmovle rfl, completesL2 .cmovl rfl, completesL2 .cmove rfl,
    completesL2 .cmovne rfl, completesL2 .cmovge rfl, completesL2 .cmovg rfl, completesL2 .addq rfl,
    completesL2 .subq rfl, completesL2 .andq rfl, completesL2 .xorq rfl, completesL2 .mulq rfl, completesL2 .divq rfl,
    completesL2 .modq rfl, completesL2 .pushq rfl, completesL2 .popq rfl⟩

/-- Settles O34: each of the eight is `completesL9`. -/
theorem execCompletesLengthNine : Obligations.ExecCompletesLengthNine := by
  unfold Obligations.ExecCompletesLengthNine
  exact ⟨completesL9 .jmp rfl, completesL9 .jle rfl, completesL9 .jl rfl, completesL9 .je rfl, completesL9 .jne rfl,
    completesL9 .jge rfl, completesL9 .jg rfl, completesL9 .call rfl⟩

/-- Settles O35: each of the three is `completesL10`. -/
theorem execCompletesLengthTen : Obligations.ExecCompletesLengthTen := by
  unfold Obligations.ExecCompletesLengthTen
  exact ⟨completesL10 .irmovq rfl rfl, completesL10 .rmmovq rfl rfl, completesL10 .mrmovq rfl rfl⟩

/-! ## Instructions cut short, and the frame of all -/

theorem wellFormed_of_complete {i : Instr} (h : i.complete = true) : i.WellFormed = true := by
  cases i <;> simp_all [Instr.complete, Instr.WellFormed, immFits_iff, immNeedsRegs, Config.immBytes]

theorem truncated_of_incomplete {i : Instr} (hwf : i.WellFormed = true) (hc : i.complete = false) :
    truncated i.mnemonic.opcode i.regs i.imm = true := by
  rw [truncated_eq_not_complete i hwf, hc, Bool.not_false]

theorem not_truncated_of_complete {i : Instr} (hc : i.complete = true) :
    truncated i.mnemonic.opcode i.regs i.imm = false := by
  rw [truncated_eq_not_complete i (wellFormed_of_complete hc), hc, Bool.not_true]

/-- An instruction cut short: the partial record and MemoryAccessError, counting the bytes it is encoded in. -/
theorem exec_of_incomplete {i : Instr} (hwf : i.WellFormed = true) (hc : i.complete = false) (s : State) :
    exec i s = .next { s with
      cur := s.cur + BitVec.ofNat 64 (encode i).length
      status := .errMemory, errPc := s.pc
      errLen := BitVec.ofNat 4 i.mnemonic.opcode.len, errCnt := BitVec.ofNat 4 (encode i).length
      events := s.events ++
        [.partialRecord (buildRecord s.pc i.mnemonic.opcode (highNibble i.mnemonic.header)
          (lowNibble i.mnemonic.header) i.mnemonic i.regs i.imm), .terminal (.memoryAccessError s.pc
            (BitVec.ofNat 4 i.mnemonic.opcode.len) (BitVec.ofNat 4 (encode i).length))] } := by
  rw [exec_eq_deliver, deliver_of_truncated s (truncated_of_incomplete hwf hc), bytesRead_eq_length]

/-- Settles O37: the effect is `exec_of_incomplete`, the count is below the declared length by
`bytesRead_lt_of_truncated`. -/
theorem incompleteInstructionRaisesMemoryAccessError : Obligations.IncompleteInstructionRaisesMemoryAccessError := by
  unfold Obligations.IncompleteInstructionRaisesMemoryAccessError
  intro i s _ hwf hc
  have hlt := bytesRead_lt_of_truncated (i.wellFormed_iff.1 hwf) (truncated_of_incomplete hwf hc)
  rw [bytesRead_eq_length] at hlt
  exact ⟨i.mnemonic.opcode, _, ofNibble_header i.mnemonic, hlt, rfl, rfl, rfl, exec_of_incomplete hwf hc s⟩

/-- Settles O36: the shared step of the instruction either delivers the full record (`deliver_of_sufficient`), which a
complete one does, or is cut short (`deliver_of_truncated`). -/
theorem execFrame : Obligations.ExecFrame := by
  unfold Obligations.ExecFrame
  intro i s t h
  rw [exec_eq_deliver] at h
  cases htrunc : truncated i.mnemonic.opcode i.regs i.imm with
  | false =>
    rw [deliver_of_sufficient s htrunc, bytesRead_eq_length] at h
    obtain rfl := Host.Outcome.next.inj h
    refine ⟨rfl, fun _ => rfl, rfl, rfl, rfl, fun _ => ⟨rfl, rfl, rfl, rfl, _, rfl⟩, fun hwf hc => ?_⟩
    exact absurd htrunc (by simp [truncated_of_incomplete hwf hc])
  | true =>
    rw [deliver_of_truncated s htrunc, bytesRead_eq_length] at h
    obtain rfl := Host.Outcome.next.inj h
    refine ⟨rfl, fun _ => rfl, rfl, rfl, rfl, fun hc => ?_, fun _ _ => ⟨rfl, _, _, _, rfl⟩⟩
    exact absurd htrunc (by simp [not_truncated_of_complete hc])

/-! ## The truncation table (40_decode_step.md R98) -/

section table
variable {s : State} (o : Opcode) (hs : s.Ready)
include hs

/-- What the register-byte read of the table obtains: the byte behind the header, if two bytes are left. -/
theorem regsAt_eq : s.regsAt o =
    if o.needRegs && decide (2 ≤ s.bytesLeft) then (s.stream.byteAt? (s.pc.toNat + 1)).map splitRegs else none := by
  rw [State.regsAt, hs.atPc]
  by_cases hleft : 2 ≤ s.bytesLeft
  · simp [hleft]
  · have hnone : s.stream.byteAt? (s.pc.toNat + 1) = none :=
      Memory.byteAt_eq_none.2 (by unfold State.bytesLeft at hleft; omega)
    simp [hnone]

theorem registersValid_at : registersValid (s.regsAt o) = (o.needRegs && decide (2 ≤ s.bytesLeft)) := by
  rw [regsAt_eq o hs]
  by_cases hleft : 2 ≤ s.bytesLeft
  · have hlt : s.pc.toNat + 1 < s.stream.size.val := by unfold State.bytesLeft at hleft; omega
    cases o.needRegs <;> simp [registersValid, hleft, Memory.byteAt_of_lt hlt]
  · simp [registersValid, hleft]

theorem regsAt_map {α : Type} (g : Specifiers → α) : (s.regsAt o).map g =
    if registersValid (s.regsAt o) then (s.stream.byteAt? (s.pc.toNat + 1)).map (g ∘ splitRegs) else none := by
  rw [registersValid_at o hs, regsAt_eq o hs]
  split
  · exact Option.map_map _ _ _
  · rfl

/-- What the immediate read of the table obtains: the bytes behind the header and register bytes, at most eight. -/
theorem immAt_eq : s.immAt o = if o.needImm then s.stream.memRead (s.pc.toNat + (if o.needRegs then 2 else 1))
    (min 8 (s.bytesLeft - (if o.needRegs then 2 else 1))) else [] := by
  rw [State.immAt, hs.atPc]
  cases o.needRegs with
  | false => simp only [Bool.false_eq_true, ite_false, Nat.add_zero, readPrefix_behind_header]
  | true => simp only [ite_true, Nat.add_assoc, Nat.reduceAdd, readPrefix_behind_registers]

theorem immediateValid_at : immediateValid (s.immAt o) =
    (o.needImm && decide ((if o.needRegs then 3 else 2) ≤ s.bytesLeft)) := by
  rw [immAt_eq o hs, immediateValid]
  cases o.needImm with
  | false => rfl
  | true =>
    simp only [ite_true, Memory.memRead_length, Bool.true_and, decide_eq_decide]
    split <;> omega

theorem immValue_at : immValue (s.immAt o) = if o.needImm then
    immValue (s.stream.memRead (s.pc.toNat + (if o.needRegs then 2 else 1))
      (min 8 (s.bytesLeft - (if o.needRegs then 2 else 1)))) else 0 := by
  rw [immAt_eq o hs, apply_ite immValue, immValue_nil]

end table

/-- Settles O41: the step is `step_eq_afterRecord` or `step_eq_afterTruncation`, and the record's fields are what the
reads of the table obtain. -/
theorem outcomeByBytesLeft : Obligations.OutcomeByBytesLeft := by
  unfold Obligations.OutcomeByBytesLeft
  intro s h o ifun mn hs hh hc
  refine ⟨buildRecord s.pc o (highNibble h) ifun mn (s.regsAt o) (s.immAt o), ?_, rfl, rfl, rfl, rfl, rfl, rfl, rfl,
    registersValid_at o hs, regsAt_map o hs Specifiers.rA, regsAt_map o hs Specifiers.rB, immediateValid_at o hs,
    immValue_at o hs⟩
  split
  · exact step_eq_afterTruncation hs hh hc ‹_›
  · exact step_eq_afterRecord hs hh hc (by omega)

end Sys2Proof.Machine

/-! # Proofs: the classifier's tables, the immediate's bytes and the canonical byte source (30_encoding.md section 4;
40_decode_step.md R80 to R92; 20_memory.md R31) -/

namespace Sys2Proof.Machine

open Claims

/-! ## Words and header bytes -/

/-- Settles O3: the decoder evaluated on the eleven byte lists. -/
theorem wordsOfTheSpecDecode : Obligations.WordsOfTheSpecDecode := by
  unfold Obligations.WordsOfTheSpecDecode
  decide

theorem classify_eq_headerGrid : ∀ h : Byte, classify h = headerGrid h := by decide

/-- Settles O4: the grid is the classifier's on each of the 256 bytes, and the three counts go by the grid's rows, one
for each high nibble (`countP_range_mul`). -/
theorem classifierIsTheHeaderGrid : Obligations.ClassifierIsTheHeaderGrid := by
  unfold Obligations.ClassifierIsTheHeaderGrid
  exact ⟨classify_eq_headerGrid, (countP_range_mul _ 16 16).trans (by decide),
    (countP_range_mul _ 16 16).trans (by decide), (countP_range_mul _ 16 16).trans (by decide)⟩

/-! ## The model's opcode tables against the spec's (R80 to R84) -/

theorem opLegal_eq : ∀ n : Nibble, Pseudo.opLegal n = (Opcode.ofNibble n).isSome := by decide

theorem len?_eq : ∀ n : Nibble, Pseudo.len? n = (Opcode.ofNibble n).map Opcode.len := by decide

theorem mnemonic?_eq : ∀ n f : Nibble, Pseudo.mnemonic? n f = (Opcode.ofNibble n).bind (·.mnemonic f) := by decide

theorem funLegal_eq : ∀ n f : Nibble, Pseudo.opLegal n = true →
    Pseudo.funLegal n f = (Pseudo.mnemonic? n f).isSome := by decide

theorem needRegs_eq (o : Opcode) : Pseudo.needRegs o.len = o.needRegs := by cases o <;> rfl

theorem needImm_eq (o : Opcode) : Pseudo.needImm o.len = o.needImm := by cases o <;> rfl

/-- What the spec's tables hold at a legal header byte. -/
theorem tables_of_legal {h : Byte} {o : Opcode} {f : Nibble} {mn : Mnemonic} (hc : classify h = .legal o f mn) :
    f = lowNibble h ∧ Pseudo.opLegal (highNibble h) = true ∧ Pseudo.funLegal (highNibble h) (lowNibble h) = true ∧
      Pseudo.mnemonic? (highNibble h) (lowNibble h) = some mn ∧ Pseudo.len? (highNibble h) = some o.len := by
  obtain ⟨rfl, rfl, rfl⟩ := classify_eq_legal.1 hc
  have hop : Pseudo.opLegal (highNibble mn.header) = true := by rw [opLegal_eq, ofNibble_header]; rfl
  have hmn : Pseudo.mnemonic? (highNibble mn.header) (lowNibble mn.header) = some mn := by
    rw [mnemonic?_eq, ofNibble_header, Option.bind_some, mnemonic_header]
  exact ⟨rfl, hop, by rw [funLegal_eq _ _ hop, hmn]; rfl, hmn, by rw [len?_eq, ofNibble_header]; rfl⟩

theorem tables_of_badOpcode {h : Byte} {v : Nibble} (hc : classify h = .badOpcode v) :
    Pseudo.opLegal (highNibble h) = false := by
  rw [opLegal_eq, ofNibble_of_twelve_le _ (classify_badOpcode hc).2]
  rfl

theorem tables_of_badFunction {h : Byte} {v : Nibble} (hc : classify h = .badFunction v) :
    Pseudo.opLegal (highNibble h) = true ∧ Pseudo.funLegal (highNibble h) (lowNibble h) = false := by
  obtain ⟨-, o, ho, hm⟩ := classify_badFunction hc
  have hop : Pseudo.opLegal (highNibble h) = true := by rw [opLegal_eq, ho]; rfl
  exact ⟨hop, by rw [funLegal_eq _ _ hop, mnemonic?_eq, ho, Option.bind_some, hm]; rfl⟩

/-- Settles O5: each of the classifier's answers decides the spec's two tests, and a legal one its tables. -/
theorem classifierIsOpcodeThenFunctionTest : Obligations.ClassifierIsOpcodeThenFunctionTest := by
  unfold Obligations.ClassifierIsOpcodeThenFunctionTest
  intro h
  cases hc : classify h with
  | badOpcode v =>
    obtain ⟨rfl, -⟩ := classify_badOpcode hc
    simp [tables_of_badOpcode hc]
  | badFunction v =>
    obtain ⟨rfl, -⟩ := classify_badFunction hc
    simp [tables_of_badFunction hc]
  | legal o f mn =>
    obtain ⟨rfl, hop, hfun, hmn, hlen⟩ := tables_of_legal hc
    simp only [hop, hfun, hmn, hlen]
    exact ⟨nofun, nofun, fun _ _ => ⟨o, mn, o.len, rfl, rfl, rfl, rfl, (needRegs_eq o).symm, (needImm_eq o).symm⟩⟩

/-! ## The immediate's raw bytes and marks (R91, R92) -/

/-- Byte `j` of the value is the byte obtained there, or zero. -/
theorem immValue_extractLsb' (m : List Byte) {j : Nat} (hj : j < 8) :
    (immValue m).extractLsb' (8 * j) 8 = m[j]?.getD 0 := by
  refine BitVec.eq_of_getLsbD_eq fun i hi => ?_
  rw [BitVec.getLsbD_extractLsb', immValue_getLsbD m (by omega), show (8 * j + i) / 8 = j by omega,
    show (8 * j + i) % 8 = i by omega]
  simp [hi]

theorem rawBytes_immValue {m : List Byte} (h : m.length ≤ 8) :
    rawBytes (immValue m) = m ++ List.replicate (8 - m.length) 0 := by
  have hraw : rawBytes (immValue m) = (List.range 8).map fun j => (immValue m).extractLsb' (8 * j) 8 := rfl
  refine List.ext_getElem (by simp [hraw, h]) fun j hj _ => ?_
  have hj8 : j < 8 := by simpa [hraw] using hj
  simp only [hraw, List.getElem_map, List.getElem_range, immValue_extractLsb' m hj8, List.getElem_append,
    List.getElem_replicate]
  split
  · rw [List.getElem?_eq_getElem ‹_›, Option.getD_some]
  · rw [List.getElem?_eq_none (by omega), Option.getD_none]

/-- Settles O8: the bytes are `immValue_extractLsb'` at each place, the count is `bytesRead_sub`. -/
theorem rawBytesRecoverTheImmediate : Obligations.RawBytesRecoverTheImmediate := by
  unfold Obligations.RawBytesRecoverTheImmediate
  exact ⟨fun m => rawBytes_immValue, bytesRead_sub⟩

/-- Settles O9: the marks are tests of the count; no byte is the empty list. -/
theorem immediateMarksByByteCount : Obligations.ImmediateMarksByByteCount := by
  unfold Obligations.ImmediateMarksByByteCount
  intro m _
  refine ⟨decide_eq_true_iff, decide_eq_true_iff, fun hm => ?_⟩
  obtain rfl := List.length_eq_zero_iff.1 hm
  exact ⟨rfl, rfl⟩

/-! ## The byte source (20_memory.md R31) -/

/-- Settles O11: `Memory.byteAt_of_lt` and `Memory.byteAt_eq_none`. -/
theorem availableIffBelowSize : Obligations.AvailableIffBelowSize := by
  unfold Obligations.AvailableIffBelowSize
  intro m a b
  refine ⟨?_, fun ha hle => ?_⟩
  · rw [Option.isSome_iff_ne_none, Ne, Memory.byteAt_eq_none, Nat.not_le]
  · rw [Memory.byteAt_eq_none] at ha ⊢
    exact ha.trans hle

section canonical
variable {lo hi : Nat}

theorem cellsWf_cons {c : Nat} {v : Byte} {rest : List Host.Cell} : cellsWf lo hi ((c, v) :: rest) = true ↔
    lo ≤ c ∧ c < hi ∧ v ≠ Config.unlistedByte ∧ cellsWf (c + 1) hi rest = true := by
  simp [cellsWf, and_assoc]

/-- Below the first offset that a canonical list may hold, nothing is listed. -/
theorem lookup_of_lt {cells : List Host.Cell} (h : cellsWf lo hi cells = true) {a : Nat} (ha : a < lo) :
    lookup cells a = Config.unlistedByte := by
  induction cells generalizing lo with
  | nil => rfl
  | cons x rest ih =>
    obtain ⟨hlo, -, -, hrest⟩ := cellsWf_cons.1 h
    rw [lookup, if_neg (by omega), ih hrest (by omega)]

/-- A canonical list whose first cell is at `c` reads otherwise there than any list that holds cells from beyond `c` on
only. -/
theorem lookup_head_ne {c : Nat} {v : Byte} {rest cells : List Host.Cell} (h : cellsWf lo hi ((c, v) :: rest) = true)
    (hcells : cellsWf (c + 1) hi cells = true) : lookup ((c, v) :: rest) c ≠ lookup cells c := by
  obtain ⟨-, -, hv, -⟩ := cellsWf_cons.1 h
  rw [lookup_of_lt hcells (Nat.lt_succ_self c), lookup, if_pos rfl]
  exact hv

theorem cells_eq_of_lookup_eq {cells cells' : List Host.Cell} (h : cellsWf lo hi cells = true)
    (h' : cellsWf lo hi cells' = true) (heq : ∀ a < hi, lookup cells a = lookup cells' a) : cells = cells' := by
  induction cells generalizing lo cells' with
  | nil =>
    cases cells' with
    | nil => rfl
    | cons y rest' =>
      obtain ⟨-, hhi, -⟩ := cellsWf_cons.1 h'
      exact absurd (heq _ hhi).symm (lookup_head_ne h' rfl)
  | cons x rest ih =>
    obtain ⟨c, v⟩ := x
    obtain ⟨hlo, hhi, hv, hrest⟩ := cellsWf_cons.1 h
    cases cells' with
    | nil => exact absurd (heq _ hhi) (lookup_head_ne h rfl)
    | cons y rest' =>
      obtain ⟨c', v'⟩ := y
      obtain ⟨hlo', hhi', hv', hrest'⟩ := cellsWf_cons.1 h'
      rcases Nat.lt_trichotomy c c' with hlt | rfl | hgt
      · exact absurd (heq c hhi) (lookup_head_ne h (cellsWf_cons.2 ⟨hlt, hhi', hv', hrest'⟩))
      · have hvv : v = v' := by simpa [lookup] using heq c hhi
        have hrests : rest = rest' := ih hrest hrest' fun a ha => by
          by_cases hac : c = a
          · subst hac
            rw [lookup_of_lt hrest (Nat.lt_succ_self c), lookup_of_lt hrest' (Nat.lt_succ_self c)]
          · simpa [lookup, hac] using heq a ha
        rw [hvv, hrests]
      · exact absurd (heq c' hhi').symm (lookup_head_ne h' (cellsWf_cons.2 ⟨hgt, hhi, hv, hrest⟩))

end canonical

/-- Two byte sources that agree on every offset have one size. -/
theorem size_eq_of_byteAt_eq {m n : Memory} (h : ∀ a, m.byteAt? a = n.byteAt? a) : m.size = n.size := by
  have hm : n.size.val ≤ m.size.val := Memory.byteAt_eq_none.1 ((h _).symm.trans (Memory.byteAt_eq_none.2 le_rfl))
  have hn : m.size.val ≤ n.size.val := Memory.byteAt_eq_none.1 ((h _).trans (Memory.byteAt_eq_none.2 le_rfl))
  exact Fin.ext (Nat.le_antisymm hn hm)

/-- Settles O12: the sizes agree by what is unavailable, the cells by `cells_eq_of_lookup_eq`. -/
theorem canonicalStreamsWithEqualBytesAreEqual : Obligations.CanonicalStreamsWithEqualBytesAreEqual := by
  unfold Obligations.CanonicalStreamsWithEqualBytesAreEqual
  intro m n hm hn h
  have hsize := size_eq_of_byteAt_eq h
  have hlookup : ∀ a < m.size.val, lookup m.cells a = lookup n.cells a := fun a ha => by
    have hbyte := h a
    rw [Memory.byteAt_of_lt ha, Memory.byteAt_of_lt (hsize ▸ ha)] at hbyte
    exact Option.some.inj hbyte
  have hcells : m.cells = n.cells := cells_eq_of_lookup_eq hm (hsize ▸ hn) hlookup
  cases m
  cases n
  simp_all

/-! ## The status codes (10_state.md R18) -/

/-- The status of a code; 5, 6 and 7 have none of their own and are read as the last. -/
def statusOfCode (c : BitVec 3) : Status :=
  if c = 0 then .run else if c = 1 then .ended else if c = 2 then .errOpcode else if c = 3 then .errFunction
  else .errMemory

theorem statusOfCode_code (a : Status) : statusOfCode a.code = a := by cases a <;> rfl

/-- Settles O45: the codes as the table writes them, and a status is read back from its code (`statusOfCode_code`). -/
theorem statusCodes : Obligations.StatusCodes := by
  unfold Obligations.StatusCodes
  refine ⟨rfl, rfl, rfl, rfl, rfl, fun a => ?_, fun a b h => ?_⟩
  · cases a <;> decide
  · exact Function.LeftInverse.injective statusOfCode_code h

end Sys2Proof.Machine

/-! # Proofs: the step is the spec's DecodeStep, and what a placed word runs (40_decode_step.md R95) -/

namespace Sys2Proof.Machine

/-! ## The step runs what it fetches -/

/-- What decodes to an instruction is run. -/
theorem step_of_fetch {s : State} {i : Instr} {rest : List Byte} (hd : s.resetDone = true) (hr : s.status = .run)
    (hf : s.fetch = .instr i rest) : step s = exec i s := by
  rw [step_of_run hd hr, hf]

/-- Settles O13: the bytes decoded are those that `step` fetches. -/
theorem stepRunsTheDecodedInstruction : Obligations.StepRunsTheDecodedInstruction := by
  unfold Obligations.StepRunsTheDecodedInstruction
  exact fun s i rest hd hr hf => step_of_fetch hd hr hf

/-- Bytes loaded are read back. -/
theorem readPrefix_load {m : Memory} {a : Nat} {bytes : List Byte} (hwf : m.wf = true)
    (ha : a + bytes.length < 2 ^ 64) : (m.load a bytes).readPrefix a bytes.length = bytes := by
  have hlength : ((m.load a bytes).readPrefix a bytes.length).length = bytes.length := by
    rw [Memory.readPrefix_length, Memory.load_size]; omega
  refine List.ext_getElem? fun j => ?_
  by_cases hj : j < bytes.length
  · have hav : j < (m.load a bytes).available a bytes.length := by
      rw [← hlength, Memory.readPrefix_length] at hj
      exact hj
    rw [Memory.readPrefix_getElem? _ _ _ hav, Memory.byteAt_load a _ bytes hwf ha (by omega) (by omega),
      Nat.add_sub_cancel_left]
  · rw [List.getElem?_eq_none (by omega), List.getElem?_eq_none (by omega)]

theorem decodeTableWord_eq_some {nbits w : Nat} {i : Instr} (h : decodeTableWord nbits w = some i) :
    ∃ rest, decode (tableBytes nbits w) = .instr i rest := by
  unfold decodeTableWord at h
  split at h
  · rename_i j rest hdec
    obtain rfl := Option.some.inj h
    exact ⟨rest, hdec⟩
  all_goals cases h

/-- Settles O15: the ten bytes placed are the ten that `step` fetches (`readPrefix_load`). -/
theorem placedWordRunsNext : Obligations.PlacedWordRunsNext := by
  unfold Obligations.PlacedWordRunsNext
  intro s nbits w i hwf hfit h
  obtain ⟨rest, hdec⟩ := decodeTableWord_eq_some h
  have hbytes : (s.withFetchWord nbits w).fetchBytes = tableBytes nbits w := by
    rw [State.fetchBytes, State.withFetchWord_stream, State.withFetchWord_cur]
    exact readPrefix_load hwf hfit
  exact step_of_fetch (State.withFetchWord_resetDone _ _ _) (State.withFetchWord_status _ _ _)
    (by rw [State.fetch, hbytes, hdec])

/-! ## The three reads of DecodeStep -/

/-- A read is its bytes, their number, and the cursor moved past them. -/
theorem streamRead_eq (n : Nat) (s : State) :
    streamRead n s = ((s.stream.readPrefix s.cur.toNat n).length, s.stream.readPrefix s.cur.toNat n,
      s.consume (s.stream.readPrefix s.cur.toNat n).length) := by
  rw [Memory.readPrefix, Memory.memRead_length]
  rfl

theorem readPrefix_one (m : Memory) (a : Nat) : m.readPrefix a 1 = (m.byteAt? a).toList := by
  rw [Memory.readPrefix_succ]
  cases m.byteAt? a with
  | none => rfl
  | some b => simp [Memory.readPrefix, Memory.available, Memory.memRead]

/-- A secondary read, made only where the opcode needs it (40_decode_step.md R95 steps 6 and 7). -/
def readIf (need : Bool) (n : Nat) (s : State) : Nat × List Byte × State :=
  if need then streamRead n s else (0, [], s)

/-- A secondary read obtains `bytes` and moves the cursor past them. -/
theorem readIf_eq {need : Bool} {n : Nat} {s : State} {bytes : List Byte}
    (h : bytes = if need then s.stream.readPrefix s.cur.toNat n else []) :
    readIf need n s = (bytes.length, bytes, s.consume bytes.length) := by
  subst h
  cases need with
  | false => simp [readIf]
  | true => exact streamRead_eq n s

/-- The register byte, where the opcode has one and the stream still holds it. -/
def State.regBytesAt (s : State) (o : Opcode) : List Byte :=
  if o.needRegs then (s.stream.byteAt? (s.cur.toNat + 1)).toList else []

theorem regBytesAt_length (s : State) (o : Opcode) :
    (s.regBytesAt o).length = if registersValid (s.regsAt o) then 1 else 0 := by
  unfold State.regBytesAt State.regsAt registersValid
  cases o.needRegs <;> cases s.stream.byteAt? (s.cur.toNat + 1) <;> rfl

/-- The byte read splits into the specifiers obtained, as the pseudo-code pairs them. -/
theorem regBytesAt_map (s : State) (o : Opcode) :
    (s.regBytesAt o).head?.map (fun r => (highNibble r, lowNibble r)) = (s.regsAt o).map fun r => (r.rA, r.rB) := by
  unfold State.regBytesAt State.regsAt
  cases o.needRegs <;> cases s.stream.byteAt? (s.cur.toNat + 1) <;> rfl

section reads
variable {s : State} {h : Byte} (o : Opcode) (hh : s.stream.byteAt? s.cur.toNat = some h)
include hh

theorem consume_one_cur_toNat : (s.consume 1).cur.toNat = s.cur.toNat + 1 := by
  have hlt := (Memory.byteAt_eq_some.1 hh).1
  exact s.cur_add_toNat 1 (by omega)

theorem readIf_regs : readIf o.needRegs 1 (s.consume 1) = ((s.regBytesAt o).length, s.regBytesAt o,
    (s.consume 1).consume (s.regBytesAt o).length) := by
  refine readIf_eq ?_
  rw [consume_one_cur_toNat hh, State.consume_stream, readPrefix_one]
  rfl

/-- The immediate's bytes begin behind the register byte; where that is missing the stream has ended. -/
theorem readIf_imm : readIf o.needImm 8 ((s.consume 1).consume (s.regBytesAt o).length) =
    ((s.immAt o).length, s.immAt o, ((s.consume 1).consume (s.regBytesAt o).length).consume (s.immAt o).length) := by
  have hone := consume_one_cur_toNat hh
  refine readIf_eq ?_
  unfold State.immAt State.regBytesAt
  cases o.needRegs with
  | false => simp [hone, -State.consume_cur]
  | true =>
    cases hb : s.stream.byteAt? (s.cur.toNat + 1) with
    | none =>
      have hbehind : s.stream.byteAt? (s.cur.toNat + 1 + 1) = none := by
        rw [Memory.byteAt_eq_none] at hb ⊢; omega
      simp [hone, -State.consume_cur, Memory.readPrefix_eq_nil 8 hb, Memory.readPrefix_eq_nil 8 hbehind]
    | some b =>
      have htwo : ((s.consume 1).consume 1).cur.toNat = s.cur.toNat + 1 + 1 := by
        rw [← hone] at hb ⊢
        exact consume_one_cur_toNat hb
      simp [htwo, -State.consume_cur]

/-- Steps 6 to 9 of DecodeStep are the shared step on what the reads obtain. -/
theorem afterHeader_eq_deliver (icode f : Nibble) (mn : Mnemonic) :
    .next (Pseudo.afterHeader s.pc icode f mn o.len (s.consume 1)) =
      deliver o icode f mn (s.regsAt o) (s.immAt o) s := by
  have hregs := readIf_regs o hh
  have himm := readIf_imm o hh
  have hvalid : (s.regBytesAt o).length < 1 ↔ registersValid (s.regsAt o) = false := by
    rw [regBytesAt_length]; split <;> simp_all
  have hconsume : ((s.consume 1).consume (s.regBytesAt o).length).consume (s.immAt o).length =
      s.consume (bytesRead (s.regsAt o) (s.immAt o)) := by
    rw [← State.consume_add, ← State.consume_add, regBytesAt_length, ← Nat.add_assoc]; rfl
  unfold readIf at hregs himm
  simp only [Pseudo.afterHeader, needRegs_eq, needImm_eq, hregs, himm, hvalid, hconsume, regBytesAt_map,
    ← truncated_iff (operandsFit_at s o), ← immValue_eq_pseudo]
  simp only [regBytesAt_length, Option.map_map, Option.isSome_map]
  unfold deliver
  split <;> rfl

end reads

/-! ## The step is DecodeStep -/

/-- In a terminal status both deliver what is latched. -/
theorem decodeStep_of_latched {s : State} {τ : Terminal} (hl : s.latched? = some τ) :
    Pseudo.decodeStep s = s.emit (.terminal τ) := by
  rw [Pseudo.decodeStep, hl]

theorem decodeStep_of_noHeader {s : State} (hr : s.status = .run) (hh : s.stream.byteAt? s.cur.toNat = none) :
    Pseudo.decodeStep s = s.raise .endOfStream := by
  have hread : streamRead 1 s = (0, [], s) := by
    rw [streamRead_eq, readPrefix_one, hh]
    exact congrArg (0, [], ·) s.consume_zero
  simp only [Pseudo.decodeStep, (State.latched_none_iff s).2 hr, hread]

/-- The step and DecodeStep agree at every header byte, by the classifier's answer for it. -/
theorem step_eq_decodeStep_of_header {s : State} {h : Byte} (hd : s.resetDone = true) (hr : s.status = .run)
    (hh : s.stream.byteAt? s.cur.toNat = some h) : step s = .next (Pseudo.decodeStep s) := by
  have hread : streamRead 1 s = (1, [h], s.consume 1) := by
    rw [streamRead_eq, readPrefix_one, hh]
    rfl
  simp only [Pseudo.decodeStep, (State.latched_none_iff s).2 hr, hread]
  cases hc : classify h with
  | badOpcode v =>
    obtain ⟨rfl, -⟩ := classify_badOpcode hc
    rw [step_of_badOpcode hd hr hh hc, if_pos (tables_of_badOpcode hc)]
  | badFunction v =>
    obtain ⟨rfl, -⟩ := classify_badFunction hc
    obtain ⟨hop, hfun⟩ := tables_of_badFunction hc
    rw [step_of_badFunction hd hr hh hc, if_neg (by simp [hop]), if_pos hfun]
  | legal o f mn =>
    obtain ⟨rfl, hop, hfun, hmn, hlen⟩ := tables_of_legal hc
    rw [step_of_legal hd hr hh hc, if_neg (by simp [hop]), if_neg (by simp [hfun]), hmn, hlen]
    exact (afterHeader_eq_deliver o hh (highNibble h) (lowNibble h) mn).symm

/-- Settles O14: in a terminal status, at the end of the stream and at every header byte. -/
theorem stepIsDecodeStep : Obligations.StepIsDecodeStep := by
  unfold Obligations.StepIsDecodeStep
  intro s hd
  cases hl : s.latched? with
  | some τ => rw [step_of_latched hd hl, decodeStep_of_latched hl]
  | none =>
    have hr := (State.latched_none_iff s).1 hl
    cases hh : s.stream.byteAt? s.cur.toNat with
    | none => rw [step_of_noHeader hd hr hh, decodeStep_of_noHeader hr hh]
    | some h => exact step_eq_decodeStep_of_header hd hr hh

end Sys2Proof.Machine

/-! # Proofs: runs (40_decode_step.md R103; 70_reset_and_hazards.md R239) -/

namespace Sys2Proof.Machine

open Claims

/-! ## The record steps of a run -/

@[simp] theorem afterRecord_stream (s : State) (len : Nat) (r : DecodedRecord) :
    (afterRecord s len r).stream = s.stream := rfl

section record
variable {s : State} {len : Nat} (r : DecodedRecord) (hs : s.Ready) (hl : len ≤ s.bytesLeft)
include hs hl

/-- A record whose bytes are left moves `pc` by its length, without wrapping. -/
theorem afterRecord_pc_toNat : (afterRecord s len r).pc.toNat = s.pc.toNat + len := by
  have hadd := s.cur_add_toNat len
  rw [hs.atPc] at hadd
  exact hadd hl

theorem afterRecord_bytesLeft : (afterRecord s len r).bytesLeft = s.bytesLeft - len := by
  rw [State.bytesLeft, afterRecord_pc_toNat r hs hl, ← Nat.sub_sub]
  rfl

end record

/-! ## A run from an instruction boundary to its end -/

/-- From the boundary `s` the steps deliver the full records `rs`, one a step and each at the `pc` of its step, and then
`last`, which ends the run in the state `t`. -/
inductive RunsOut : State → List DecodedRecord → List Event → State → Prop
  | ends {s t : State} {last : List Event} (hstep : step s = .next t) (hevents : t.events = s.events ++ last)
      (hpc : t.pc = s.pc) (hover : t.RunOver) (hlast : IsTerminalOutcome last)
      (heos : t.EndedNormally ↔ last = [.terminal .endOfStream])
      (hend : t.EndedNormally ↔ s.stream.size.val ≤ s.pc.toNat) : RunsOut s [] last t
  | record {s t : State} {len : Nat} {r : DecodedRecord} {rs : List DecodedRecord} {last : List Event} (hs : s.Ready)
      (hstep : step s = .next (afterRecord s len r)) (hp : r.programCounter = s.pc)
      (hn : r.nextProgramCounter = s.pc + BitVec.ofNat 64 len) (hpos : 1 ≤ len) (hl : len ≤ s.bytesLeft)
      (hrest : RunsOut (afterRecord s len r) rs last t) : RunsOut s (r :: rs) last t

/-- A step from a boundary delivers a record, or it ends the run; normally where no header byte is left. -/
theorem record_or_over {s : State} (hs : s.Ready) :
    (∃ len r, step s = .next (afterRecord s len r) ∧ r.programCounter = s.pc ∧
      r.nextProgramCounter = s.pc + BitVec.ofNat 64 len ∧ 1 ≤ len ∧ len ≤ s.bytesLeft) ∨
    ∃ last t, RunsOut s [] last t := by
  cases hh : s.stream.byteAt? s.pc.toNat with
  | none =>
    have hN := Memory.byteAt_eq_none.1 hh
    exact .inr ⟨_, _, .ends (step_eq_endOfStream hs hN) (State.raise_events _ _) (State.raise_pc _ _) nofun (.inl rfl)
      (by simp [State.EndedNormally, Terminal.status]) (by simp [State.EndedNormally, Terminal.status, hN])⟩
  | some h =>
    have hN := Nat.not_le.2 (Memory.byteAt_eq_some.1 hh).1
    cases hc : classify h with
    | badOpcode v =>
      exact .inr ⟨_, _, .ends (step_eq_afterBadOpcode hs hh hc) rfl rfl nofun (.inr (.inl ⟨_, _, rfl⟩))
        (by simp [State.EndedNormally, afterBadOpcode]) (by simp [State.EndedNormally, afterBadOpcode, hN])⟩
    | badFunction v =>
      exact .inr ⟨_, _, .ends (step_eq_afterBadFunction hs hh hc) rfl rfl nofun (.inr (.inr (.inl ⟨_, _, rfl⟩)))
        (by simp [State.EndedNormally, afterBadFunction]) (by simp [State.EndedNormally, afterBadFunction, hN])⟩
    | legal o f mn =>
      by_cases hl : o.len ≤ s.bytesLeft
      · have hpos : 1 ≤ o.len := by rw [Opcode.len_eq]; omega
        exact .inl ⟨o.len, _, step_eq_afterRecord hs hh hc hl, rfl, rfl, hpos, hl⟩
      · exact .inr ⟨_, _, .ends (step_eq_afterTruncation hs hh hc (by omega)) rfl rfl nofun
          (.inr (.inr (.inr ⟨_, _, _, _, rfl⟩)))
          (by simp [State.EndedNormally, afterTruncation]) (by simp [State.EndedNormally, afterTruncation, hN])⟩

/-- Every run from a boundary ends, since each record consumes at least one of the bytes left. -/
theorem exists_runsOut {s : State} (hs : s.Ready) : ∃ rs last t, RunsOut s rs last t := by
  induction hleft : s.bytesLeft using Nat.strong_induction_on generalizing s with
  | _ n ih =>
    obtain ⟨len, r, hstep, hp, hn, hpos, hl⟩ | ⟨last, t, hrun⟩ := record_or_over hs
    · have hless : (afterRecord s len r).bytesLeft < n := by rw [afterRecord_bytesLeft r hs hl]; omega
      obtain ⟨rs, last, t, hrest⟩ := ih _ hless (ready_afterRecord hs len r) rfl
      exact ⟨r :: rs, last, t, .record hs hstep hp hn hpos hl hrest⟩
    · exact ⟨[], last, t, hrun⟩

section runsOut
variable {s t : State} {rs : List DecodedRecord} {last : List Event} (h : RunsOut s rs last t)
include h

theorem RunsOut.length_le : rs.length ≤ s.bytesLeft := by
  induction h with
  | ends => exact Nat.zero_le _
  | record hs hstep hp hn hpos hl hrest ih =>
    rw [afterRecord_bytesLeft _ hs hl] at ih
    rw [List.length_cons]
    omega

/-- While records are delivered the machine is in RUN. -/
theorem RunsOut.run_records (hr : s.status = .run) {j : Nat} (hj : j ≤ rs.length) :
    ∃ u, Sys2Proof.core.run j s = .next u ∧ u.status = .run ∧ u.events = s.events ++ (rs.take j).map .full := by
  induction h generalizing j with
  | ends =>
    obtain rfl := Nat.le_zero.1 hj
    exact ⟨_, run_zero _, hr, by simp⟩
  | record hs hstep hp hn hpos hl hrest ih =>
    cases j with
    | zero => exact ⟨_, run_zero _, hr, by simp⟩
    | succ j =>
      obtain ⟨u, hrun, hu, hevents⟩ := ih hr (Nat.le_of_succ_le_succ hj)
      exact ⟨u, (run_succ_of_next j hstep).trans hrun, hu, by simp [hevents, afterRecord]⟩

theorem RunsOut.run_over : Sys2Proof.core.run (rs.length + 1) s = .next t ∧
    t.events = s.events ++ rs.map .full ++ last := by
  induction h with
  | ends hstep hevents => exact ⟨(run_succ_of_next 0 hstep).trans (run_zero _), by simp [hevents]⟩
  | record hs hstep hp hn hpos hl hrest ih =>
    obtain ⟨hrun, hevents⟩ := ih
    exact ⟨(run_succ_of_next _ hstep).trans hrun, by simp [hevents, afterRecord]⟩

theorem RunsOut.terminal : t.RunOver ∧ IsTerminalOutcome last ∧
    (t.EndedNormally ↔ last = [.terminal .endOfStream]) := by
  induction h with
  | ends hstep hevents hpc hover hlast heos hend => exact ⟨hover, hlast, heos⟩
  | record hs hstep hp hn hpos hl hrest ih => exact ih

theorem RunsOut.tiles : Tiles s.pc rs t.pc := by
  induction h with
  | ends hstep hevents hpc => exact hpc.symm
  | record hs hstep hp hn hpos hl hrest ih => exact ⟨hp, hn ▸ ih⟩

/-- A run ends normally where the last record left `pc` at or past N. -/
theorem RunsOut.size_le_of_ended (hended : t.EndedNormally) : s.stream.size.val ≤ t.pc.toNat := by
  induction h with
  | ends hstep hevents hpc hover hlast heos hend => rw [hpc]; exact hend.1 hended
  | record hs hstep hp hn hpos hl hrest ih => exact ih hended

/-- No record passes N. -/
theorem RunsOut.pc_le_size (hle : s.pc.toNat ≤ s.stream.size.val) : t.pc.toNat ≤ s.stream.size.val := by
  induction h with
  | ends hstep hevents hpc => rw [hpc]; exact hle
  | record hs hstep hp hn hpos hl hrest ih =>
    refine ih ?_
    rw [afterRecord_pc_toNat _ hs hl, afterRecord_stream]
    unfold State.bytesLeft at hl
    omega

/-- With no byte left at the boundary there is no record, and the run ends normally at once. -/
theorem RunsOut.ended_of_size_le (hN : s.stream.size.val ≤ s.pc.toNat) : rs = [] ∧ t.EndedNormally := by
  cases h with
  | ends hstep hevents hpc hover hlast heos hend => exact ⟨rfl, hend.2 hN⟩
  | record hs hstep hp hn hpos hl hrest => unfold State.bytesLeft at hl; omega

theorem RunsOut.pc_of_ended (hended : t.EndedNormally) :
    (rs ≠ [] ∧ t.pc.toNat = s.stream.size.val) ∨ (rs = [] ∧ s.stream.size.val ≤ s.pc.toNat) := by
  by_cases hN : s.stream.size.val ≤ s.pc.toNat
  · exact .inr ⟨(h.ended_of_size_le hN).1, hN⟩
  · refine .inl ⟨?_, Nat.le_antisymm (h.pc_le_size (Nat.le_of_not_le hN)) (h.size_le_of_ended hended)⟩
    rintro rfl
    cases h with
    | ends hstep hevents hpc hover hlast heos hend => exact hN (hend.1 hended)

end runsOut

/-- Settles O50: the run from the boundary after Reset ends (`exists_runsOut`), and each clause is one of its
properties. -/
theorem runDeliversTilingRecordsThenOneTerminal : Obligations.RunDeliversTilingRecordsThenOneTerminal := by
  unfold Obligations.RunDeliversTilingRecordsThenOneTerminal
  intro stream start
  obtain ⟨rs, last, t, h⟩ := exists_runsOut (ready_resetWith stream start)
  obtain ⟨hrun, hevents⟩ := h.run_over
  obtain ⟨hover, hlast, heos⟩ := h.terminal
  exact ⟨rs, last, t, h.length_le, fun j hj => h.run_records rfl hj, hrun, hover, hevents, hlast, h.tiles, heos,
    h.pc_of_ended, h.ended_of_size_le⟩

end Sys2Proof.Machine
